-- ==== Sys2Proof/Word.lean ====
section
/-! DEFINITION. The bit-vector types of the core: image bytes, instruction words, and the values of the
accumulator and of a data cell (00_scope.md R6, R8). -/

namespace Sys2Proof

/-- One byte of the program image (10_state.md R27). -/
abbrev Byte := BitVec 8

/-- One instruction word, `WORD_BITS = 32` (00_scope.md R6; 30_encoding.md R49). -/
abbrev Word := BitVec 32

/-- What the accumulator or one data cell holds: 32-bit two's complement (10_state.md R15; decisions D1, D2). The
integer it denotes is `BitVec.toInt` (00_scope.md R8). -/
abbrev Value := BitVec 32

end Sys2Proof
end

