-- ==== Sys2Proof/Config.lean ====
section
/-! DEFINITION. The implementation parameters of 00_scope.md R6 with the values this hardware takes, and the type
of the one parameter the spec leaves open, `ACC_RESET`. The widths of R6 stand in the types of Sys2Proof/Word.lean
(WORD_BITS, ACC_BITS, CELL_BITS) and in the field positions of Sys2Proof/Decode.lean (TAG_BITS, OPERAND_BITS, IMM_BITS,
WADDR_BITS). -/

namespace Sys2Proof.Config

/-- `WORD_BYTES`: the length of an instruction and the step of `ip` (R6). -/
abbrev wordBytes : Nat := 4

/-- `MEM_CELLS`: data memory has exactly 1024 cells, indices 0..1023 (R6; 10_state.md R20). -/
abbrev memCells : Nat := 1024

/-- The least operand LOAD_CONST takes (30_encoding.md R51). -/
abbrev immMin : Int := -128

/-- The greatest operand LOAD_CONST takes (30_encoding.md R51). -/
abbrev immMax : Int := 127

/-- The greatest operand WRITE_MEM takes: the 24-bit field full of ones (30_encoding.md R51). -/
abbrev addrMax : Int := 0xFFFFFF

/-- The parameter `ACC_RESET` (R6; decision D3), left OPEN by the spec: whether the accumulator has a value after
reset. Under `unwritten`, reading it before the first write raises AccUnwritten; under `zero`, it is 0 at reset
(10_state.md R19). Both are modelled; a state carries the value its run was started with. -/
inductive AccReset where
  | unwritten
  | zero
  deriving DecidableEq, Repr

end Sys2Proof.Config
end

