-- ==== Sys2Proof/Syntax.lean ====
section
/-! DEFINITION. The four instructions (00_scope.md R1; every row of spec/opcode_table.json). Operands are the
integers that the spec's operand assembly gives: signed for LOAD_CONST, the cell index for WRITE_MEM
(30_encoding.md R51 to R53). -/

namespace Sys2Proof

/-- One constructor per row of the opcode table, in the table's order. The operand ranges are the subject of
`Instr.wellFormed`; the ignored bits of a word (R57) are no part of the instruction. -/
inductive Instr where
  /-- `WRITE_MEM a`, tag 0: store the accumulator in cell `a` (41_load_store.md R84). -/
  | writeMem (addr : Int)
  /-- `LOAD_CONST v`, tag 1: load the accumulator with `v` (41_load_store.md R83). -/
  | loadConst (v : Int)
  /-- `UNARY_SGN`, tag 2: the sign of the cell the accumulator addresses (42_alu.md R89). -/
  | unarySgn
  /-- `READ_MEM`, tag 3: the cell the accumulator addresses (41_load_store.md R85). -/
  | readMem
  deriving DecidableEq, Repr

end Sys2Proof
end

