-- ==== Sys2Proof/WellFormed.lean ====
section
/-! DEFINITION. Which instructions an encoding exists for: the operand ranges of 30_encoding.md R51, which the
encoder checks (R60). -/

namespace Sys2Proof

/-- The operand lies in the assembler range of R51: `[-128, 127]` for LOAD_CONST, `[0, 0xFFFFFF]` for WRITE_MEM
(wider than data memory: R60). READ_MEM and UNARY_SGN have no operand. -/
def Instr.wellFormed : Instr → Bool
  | .writeMem a => decide (0 ≤ a) && decide (a ≤ Config.addrMax)
  | .loadConst v => decide (Config.immMin ≤ v) && decide (v ≤ Config.immMax)
  | .unarySgn => true
  | .readMem => true

end Sys2Proof
end

