-- ==== Sys2Proof/Decode.lean ====
section
/-! DEFINITION. The instruction codec: bit fields, sign extension, the decoder (30_encoding.md R49 to R58), and
the encoder written from the same tables (R59 to R61, R70). -/

namespace Sys2Proof

/-- `v[hi:lo]` of 00_scope.md R7: the unsigned integer formed from bits `hi` down to `lo` of the word. -/
def bits (w : Word) (hi lo : Nat) : Nat := (w.toNat >>> lo) % 2 ^ (hi + 1 - lo)

/-- `sext_8` of 42_alu.md R87, for `u` at most 255. -/
def sext8 (u : Nat) : Int := if u ≤ 127 then (u : Int) else (u : Int) - 256

/-- The codec's decode, `(A, B) = (word[2:0], word[31:3])`, defined on every word (30_encoding.md R54). -/
def codecDecode (w : Word) : Nat × Nat := (bits w 2 0, bits w 31 3)

/-- What a word selects: one of the four instructions, or an illegal tag (30_encoding.md R55). -/
inductive Dispatched where
  | instr (i : Instr)
  | illegal (tag : Nat)
  deriving DecidableEq, Repr

/-- The opcode map of 30_encoding.md R55 with the operand values of R52 and R53: total on the 2^32 words, by the
tag alone, and reading no bit outside the operand (R57). -/
def decodeWord (w : Word) : Dispatched :=
  match bits w 2 0 with
  | 0 => .instr (.writeMem (bits w 26 3))
  | 1 => .instr (.loadConst (sext8 (bits w 10 3)))
  | 2 => .instr .unarySgn
  | 3 => .instr .readMem
  | tag => .illegal tag

/-- The bits that execution reads, for each tag (30_encoding.md R51): the tag and the operand. The others are the
ignored bits of R57. For tags 4 to 7 only the tag counts (R56). -/
def readMask (tag : Nat) : Word :=
  match tag with
  | 0 => 0x07FFFFFF
  | 1 => 0x000007FF
  | _ => 0x00000007

/-- The word with its ignored bits cleared (30_encoding.md R57). -/
def clearIgnored (w : Word) : Word := w &&& readMask (bits w 2 0)

/-- Four image bytes, lowest offset first, as a word: little-endian (20_memory.md R35). -/
def wordOfBytes (b0 b1 b2 b3 : Byte) : Word :=
  BitVec.ofNat 32 (b0.toNat ||| b1.toNat <<< 8 ||| b2.toNat <<< 16 ||| b3.toNat <<< 24)

/-- The four image bytes of a word, least significant first (20_memory.md R35; 30_encoding.md R49). -/
def bytesOfWord (w : Word) : List Byte :=
  [BitVec.ofNat 8 (bits w 7 0), BitVec.ofNat 8 (bits w 15 8),
   BitVec.ofNat 8 (bits w 23 16), BitVec.ofNat 8 (bits w 31 24)]

/-- Why bytes are no instruction: an illegal tag (30_encoding.md R56), or fewer than four bytes (40_sequencer.md
R73, R74). -/
inductive DecodeError where
  | unknownOpcode (tag : Nat)
  | truncated (nbytes : Nat)
  deriving DecidableEq, Repr

/-- Decode the instruction at the head of a byte sequence, with the bytes after it. Total: every 4-byte group is
decoded on its own (30_encoding.md R49), and what is no instruction is rejected by name. -/
def decode : List Byte → Except DecodeError (Instr × List Byte)
  | b0 :: b1 :: b2 :: b3 :: rest =>
    match decodeWord (wordOfBytes b0 b1 b2 b3) with
    | .instr i => .ok (i, rest)
    | .illegal tag => .error (.unknownOpcode tag)
  | short => .error (.truncated short.length)

/-- The opcode tag `A` of an instruction (30_encoding.md R51). -/
def opTag : Instr → Nat
  | .writeMem _ => 0
  | .loadConst _ => 1
  | .unarySgn => 2
  | .readMem => 3

/-- `B_raw` of 30_encoding.md R59 (decision D14: the 8-bit pattern of a LOAD_CONST operand). -/
def rawOperand : Instr → Nat
  | .writeMem a => a.toNat
  | .loadConst v => (v % 256).toNat
  | .unarySgn => 0
  | .readMem => 0

/-- Packing, `word = (B_raw << 3) | A` (30_encoding.md R59): the canonical word of a well-formed instruction (R70). -/
def encode (i : Instr) : Word := BitVec.ofNat 32 ((rawOperand i <<< 3) ||| opTag i)

/-- The four bytes of an instruction in image order. -/
def encodeBytes (i : Instr) : List Byte := bytesOfWord (encode i)

/-- The operand as written (30_encoding.md R61): signed for LOAD_CONST, the address for WRITE_MEM, 0 for the others. -/
def displayOperand : Instr → Int
  | .writeMem a => a
  | .loadConst v => v
  | .unarySgn => 0
  | .readMem => 0

/-- The range error of 30_encoding.md R60, with the operand refused. -/
inductive EncodeError where
  | outOfRange (operand : Int)
  deriving DecidableEq, Repr

/-- `encode(mnemonic, operand)` of 30_encoding.md R60 and R61: the range check, then the word and the display
operand. It never clamps. -/
def encodeChecked (i : Instr) : Except EncodeError (Word × Int) :=
  if i.wellFormed then .ok (encode i, displayOperand i) else .error (.outOfRange (displayOperand i))

/-- The word whose low `nbits` bits are those of `w`, the rest 0, in the numbering of spec/opcode_table.json (bit 0
the least significant bit of the one word). -/
def tableWord (nbits w : Nat) : Word := BitVec.ofNat 32 (w % 2 ^ nbits)

/-- What the decoder reads from such a word, laid out in the image's byte order. -/
def decodeTableWord (nbits w : Nat) : Option Instr :=
  match decode (bytesOfWord (tableWord nbits w)) with
  | .ok (i, _) => some i
  | .error _ => none

end Sys2Proof
end

