-- ==== Sys2Proof/Machine/Params.lean ====
section
/-! DEFINITION. The value `State.reset` takes for the spec's open parameter `ACC_RESET`. It stands in a file of its
own so that a later measurement of the hardware can change it. -/

namespace Sys2Proof.Machine

/-- The spec's default (00_scope.md R6; 10_state.md R19; decision D3). DESIGN CHOICE of the spec, not of the
document; safe against `zero` (D3: "toward unprovable"). Log 2. -/
def accResetDefault : Config.AccReset := .unwritten

end Sys2Proof.Machine
end

