-- ==== Sys2Proof/Machine/State.lean ====
section
/-! DEFINITION. The state of the core (10_state.md R15), its reset (R31), and the reasons a step of the model can
stop. -/

namespace Sys2Proof.Machine

/-- The causes of a fatal condition (60_exceptions.md R93). The codes are `FaultCause.code`. -/
inductive FaultCause where
  /-- A data address outside [0, 1023]; info: the address, signed. -/
  | memOutOfRange
  /-- A dispatched word with tag 4 to 7; info: the tag. -/
  | unknownOpcode
  /-- A read of the accumulator before its first write, only under `ACC_RESET = Unwritten`; info: the instruction's tag. -/
  | accUnwritten
  /-- A malformed or out-of-range dump request. Raised by the dump port only, and never in a state's fault record. -/
  | badDumpRange
  deriving DecidableEq, Repr

/-- The fault record (10_state.md R24). -/
structure FaultRecord where
  cause : FaultCause
  info : Int
  deriving DecidableEq, Repr

/-- The run state (10_state.md R23), four values (90_conflicts.md C1). The fault record is the payload of `aborted`:
in any other run state it is unused and must not be read (R24), so there it has no value here. Log 5. -/
inductive RunState where
  | running
  | haltedNormally
  | haltedTruncated
  | aborted (fault : FaultRecord)
  deriving DecidableEq, Repr

/-- Data memory: the cells that do not hold 0, as (index, value) pairs with the indices strictly rising and below
1024 (`Memory.wf`). A cell is the smallest unit of access and has no bytes (10_state.md R20; 20_memory.md R36). -/
abbrev Memory := List (Nat × Value)

/-- The state of the core (10_state.md R15), with the two constants of a run that R33 calls inputs, not state: the
program image and the parameter `ACC_RESET`. No step changes those two (log 1). -/
structure State where
  /-- The program image (R27): an input of the run. -/
  image : List Byte
  /-- The parameter `ACC_RESET` of the run (R6, R33). -/
  accReset : Config.AccReset
  /-- The accumulator (R16). -/
  acc : Value
  /-- Whether `acc` has been written since reset (R19). Under `ACC_RESET = Zero` the bit is absent: constantly false here. -/
  accWritten : Bool
  /-- Data memory (R20). -/
  mem : Memory
  /-- The instruction pointer, a byte offset into the image (R22). -/
  ip : Nat
  /-- The run state, with the fault record when Aborted (R23, R24). -/
  runState : RunState
  deriving DecidableEq, Repr

/-- Why the model's step has no next state. The spec's own faults are not here: they are next states in which the
core is Aborted. Each of these is raised by the sequencer alone, when a step is asked of a core that has left Running
(40_sequencer.md R79: it "takes no step"). Safe: the spec gives no step there either. -/
inductive Fault where
  /-- Raised by `step` when the core has halted normally. Safe. -/
  | haltedNormally
  /-- Raised by `step` when the core has halted truncated. Safe. -/
  | haltedTruncated
  /-- Raised by `step` when the core is Aborted, with its fault record (00_scope.md R10). Safe. -/
  | aborted (fault : FaultRecord)
  deriving DecidableEq, Repr

/-- Refusals of the model. -/
inductive Refusal where
  /-- An instruction without a meaning, rejected by name in `exec`. No arm answers it: all four are modelled. Safe. -/
  | notModelled (mnemonic : String)
  deriving DecidableEq, Repr

/-- Reset with the image and the parameter supplied (10_state.md R31; 70_reset_and_hazards.md R109, R111). Under
`unwritten` the spec gives `acc` no value: the field holds 0, which no step reads before a write (DESIGN CHOICE,
log 2). -/
def State.resetWith (p : Config.AccReset) (img : List Byte) : State where
  image := img
  accReset := p
  acc := 0
  accWritten := false
  mem := []
  ip := 0
  runState := .running

/-- The core right after reset, with the spec's default for `ACC_RESET` and no image placed (log 2, log 6). -/
def State.reset : State := State.resetWith accResetDefault []

end Sys2Proof.Machine
end

