-- ==== Sys2Proof/Machine/Ops.lean ====
section
/-! DEFINITION. The named operations over memory, the accumulator, the program image and the run state, and the one
shared fault entry (60_exceptions.md R95). There is no return from a fault (R99). -/

namespace Sys2Proof.Machine

/-- What a cell that the list does not hold reads as: 0, the reset contents (10_state.md R31). -/
def Memory.unlisted : Value := 0

/-- `MemRead(a, 1)` of 00_scope.md R9. At an index of 1024 or more R9 does not define it: DESIGN CHOICE (log 17, safe),
this function answers there what an unlisted cell reads as, 0 on a canonical list. No step and no dump reads there. -/
def Memory.read : Memory → Nat → Value
  | [], _ => Memory.unlisted
  | (b, w) :: rest, a => if a = b then w else Memory.read rest a

/-- `MemWrite(a, 1, v)` of 00_scope.md R9. At a cell, 0 to 1023, it keeps a canonical list canonical: writing what an
unlisted cell reads as removes the entry. At an index of 1024 or more R9 does not define it: DESIGN CHOICE (log 18, safe),
this function treats the index there like a cell's, so a nonzero value is listed and the list is no longer canonical. No
step writes there. -/
def Memory.write : Memory → Nat → Value → Memory
  | [], a, v => if v = Memory.unlisted then [] else [(a, v)]
  | (b, w) :: rest, a, v =>
    if a < b then (if v = Memory.unlisted then (b, w) :: rest else (a, v) :: (b, w) :: rest)
    else if a = b then (if v = Memory.unlisted then rest else (a, v) :: rest)
    else (b, w) :: Memory.write rest a v

/-- The list is canonical from index `lo` on: indices strictly rising, each a cell of the memory, and no entry equal
to what an unlisted cell reads as. -/
def Memory.wfFrom : Nat → Memory → Bool
  | _, [] => true
  | lo, (a, v) :: rest =>
    decide (lo ≤ a) && decide (a < Config.memCells) && decide (v ≠ Memory.unlisted) && Memory.wfFrom (a + 1) rest

/-- The canonical form of data memory. -/
def Memory.wf (m : Memory) : Bool := Memory.wfFrom 0 m

/-- Whether an instruction may read the accumulator (10_state.md R19). -/
def State.accReadable (s : State) : Bool :=
  match s.accReset with
  | .zero => true
  | .unwritten => s.accWritten

/-- `acc <- v`, which also sets `accWritten` where that bit exists (10_state.md R19). -/
def State.setAcc (s : State) (v : Value) : State :=
  { s with
    acc := v
    accWritten := match s.accReset with
      | .zero => s.accWritten
      | .unwritten => true }

/-- Store a value in one cell (the caller has checked the index: 00_scope.md R9). -/
def State.writeCell (s : State) (a : Nat) (v : Value) : State := { s with mem := s.mem.write a v }

/-- `halt <State>` of 00_scope.md R9: only the run state changes (40_sequencer.md R73, R74). -/
def State.halt (s : State) (r : RunState) : State := { s with runState := r }

/-- `ip <- ip + 4` (40_sequencer.md R77). -/
def State.advance (s : State) : State := { s with ip := s.ip + Config.wordBytes }

/-- TAKING A FAULT, the one shared entry (60_exceptions.md R95): the core is Aborted, the record is written, `ip` and
everything else stay as they are (R78, R96). -/
def State.abort (s : State) (f : FaultRecord) : State := { s with runState := .aborted f }

/-- The address check of the memory address unit (20_memory.md R37), on a mathematical integer. -/
def addrCheck (a : Int) : Option FaultRecord :=
  if 0 ≤ a ∧ a < Config.memCells then none else some ⟨.memOutOfRange, a⟩

/-- The accumulator-written check (10_state.md R19), naming the tag of the instruction that reads `acc`. -/
def accCheck (tag : Nat) (s : State) : Option FaultRecord :=
  if s.accReadable then none else some ⟨.accUnwritten, tag⟩

/-- `raise` of 00_scope.md R9: the step ends in the Aborted state. -/
def raise (f : FaultRecord) (s : State) : Host.Outcome State Fault Refusal := .next (s.abort f)

/-- How an instruction ends (00_scope.md R11): in a `raise` from the state before it (R96), or with its effect and the
advance of `ip` (40_sequencer.md R77). -/
def finish (check : Option FaultRecord) (before effect : State) : Host.Outcome State Fault Refusal :=
  match check with
  | some f => raise f before
  | none => .next effect.advance

/-- `L - ip` (00_scope.md R14), an integer: it is negative in states no run reaches (log 8). -/
def State.remaining (s : State) : Int := (s.image.length : Int) - (s.ip : Int)

/-- `ImgByte(i)` (00_scope.md R9), defined there for `i < L`; no step of the model reads it elsewhere. -/
def State.imgByte (s : State) (i : Nat) : Byte := s.image.getD i 0

/-- `ImgRead(ip, 4)`, the fetch of a word (20_memory.md R35; 40_sequencer.md R75). -/
def State.fetchWord (s : State) : Word :=
  wordOfBytes (s.imgByte s.ip) (s.imgByte (s.ip + 1)) (s.imgByte (s.ip + 2)) (s.imgByte (s.ip + 3))

/-- The image with four bytes placed at an offset, filled with zero bytes where it was too short to reach there. -/
def placeBytes (img : List Byte) (at_ : Nat) (bs : List Byte) : List Byte :=
  img.take at_ ++ List.replicate (at_ - img.length) 0 ++ bs ++ img.drop (at_ + bs.length)

end Sys2Proof.Machine
end

