-- ==== Sys2Proof/Machine/Operands.lean ====
section
/-! DEFINITION. The operand forms: the immediate of LOAD_CONST and the two addressing modes (41_load_store.md,
introduction; 42_alu.md R92). None modifies a register and none is scaled. -/

namespace Sys2Proof.Machine

/-- The immediate, as the accumulator holds it: 32-bit two's complement of the signed integer (41_load_store.md R83). -/
def immediateValue (v : Int) : Value := BitVec.ofInt 32 v

/-- Absolute addressing: the cell index is the instruction's field (41_load_store.md R84). -/
def absoluteAddr (addr : Int) : Int := addr

/-- Accumulator-indirect addressing: the cell index is `acc`, as a signed integer (41_load_store.md R85; 42_alu.md
R92: a negative `acc` is not read as a large unsigned number). -/
def accIndirectAddr (s : State) : Int := s.acc.toInt

/-- The cell at a checked index. -/
def cellAt (s : State) (a : Int) : Value := s.mem.read a.toNat

end Sys2Proof.Machine
end

