-- ==== Sys2Proof/Machine/Alu.lean ====
section
/-! DEFINITION. The sign function and the meaning of UNARY_SGN (42_alu.md). The unit's other function, `sext_8`, is
in Sys2Proof/Decode.lean, where the immediate is formed. No negation exists (90_conflicts.md C5). -/

namespace Sys2Proof.Machine

/-- The sign function of 42_alu.md R88. -/
def sgn (v : Int) : Int := if v > 0 then 1 else if v < 0 then -1 else 0

/-- UNARY_SGN (42_alu.md R89): the accumulator-written check, then the address check; the cell is read, never
written. -/
def execUnarySgn (s : State) : Host.Outcome State Fault Refusal :=
  finish ((accCheck 2 s).or (addrCheck (accIndirectAddr s))) s
    (s.setAcc (BitVec.ofInt 32 (sgn (cellAt s (accIndirectAddr s)).toInt)))

end Sys2Proof.Machine
end

