-- ==== Sys2Proof/Machine/LoadStore.lean ====
section
/-! DEFINITION. The load/store controller: the meanings of WRITE_MEM, LOAD_CONST and READ_MEM (41_load_store.md). The
order of the checks of each instruction is 60_exceptions.md R97. -/

namespace Sys2Proof.Machine

/-- WRITE_MEM (41_load_store.md R84): the address check, then the accumulator-written check (decision D17), then the
store. The accumulator is not changed (90_conflicts.md C2). -/
def execWriteMem (addr : Int) (s : State) : Host.Outcome State Fault Refusal :=
  finish ((addrCheck (absoluteAddr addr)).or (accCheck 0 s)) s
    (s.writeCell (absoluteAddr addr).toNat s.acc)

/-- LOAD_CONST (41_load_store.md R83): never faults and does not read the accumulator. -/
def execLoadConst (v : Int) (s : State) : Host.Outcome State Fault Refusal :=
  finish none s (s.setAcc (immediateValue v))

/-- READ_MEM (41_load_store.md R85): the accumulator-written check, then the address check; the accumulator is the
address read and then the destination. -/
def execReadMem (s : State) : Host.Outcome State Fault Refusal :=
  finish ((accCheck 3 s).or (addrCheck (accIndirectAddr s))) s
    (s.setAcc (cellAt s (accIndirectAddr s)))

end Sys2Proof.Machine
end

