-- ==== Sys2Proof/Machine/Dispatch.lean ====
section
/-! DEFINITION. The dispatch of 40_sequencer.md R76 over the four instructions. -/

namespace Sys2Proof.Machine

/-- The effect of one instruction, the advance of `ip` included (R76, R77). -/
def exec (i : Instr) (s : State) : Host.Outcome State Fault Refusal :=
  match i with
  | .writeMem addr => Sys2Proof.Machine.execWriteMem addr s
  | .loadConst v => Sys2Proof.Machine.execLoadConst v s
  | .unarySgn => Sys2Proof.Machine.execUnarySgn s
  | .readMem => Sys2Proof.Machine.execReadMem s

end Sys2Proof.Machine
end

