-- ==== Sys2Proof/Machine/Sequencer.lean ====
section
/-! DEFINITION. The instruction sequencer: the halt tests, the fetch, the decode and the dispatch of one step
(40_sequencer.md R72 to R82). -/

namespace Sys2Proof.Machine

/-- Dispatch of a decoded word (40_sequencer.md R76): an instruction, or UnknownOpcode for tags 4 to 7, before any
operand is examined (60_exceptions.md R97). -/
def dispatchWord (d : Dispatched) (s : State) : Host.Outcome State Fault Refusal :=
  match d with
  | .instr i => exec i s
  | .illegal tag => raise ⟨.unknownOpcode, tag⟩ s

/-- The step of a Running core, the function `Step()` of 40_sequencer.md R82. -/
def runningStep (s : State) : Host.Outcome State Fault Refusal :=
  if s.remaining = 0 then .next (s.halt .haltedNormally)
  else if s.remaining < Config.wordBytes then .next (s.halt .haltedTruncated)
  else dispatchWord (decodeWord s.fetchWord) s

/-- One step: taken only when Running (R72); the other run states are final (R79). -/
def takeStep (s : State) : Host.Outcome State Fault Refusal :=
  match s.runState with
  | .running => runningStep s
  | .haltedNormally => .fault .haltedNormally
  | .haltedTruncated => .fault .haltedTruncated
  | .aborted f => .fault (.aborted f)

/-- The state with one word placed in the image where the next fetch reads it, Running, so that the very next step
executes it (stands for the host's load: 70_reset_and_hazards.md R111; log 6). -/
def placeWord (s : State) (w : Word) : State :=
  { s with image := placeBytes s.image s.ip (bytesOfWord w), runState := .running }

end Sys2Proof.Machine
end

