-- ==== Sys2Proof/Machine/Step.lean ====
section
/-! DEFINITION. The step of the machine and the placing of one instruction word before it. -/

namespace Sys2Proof.Machine

/-- One step of the core (40_sequencer.md R72, R82). -/
def step (s : State) : Host.Outcome State Fault Refusal := takeStep s

/-- The state with the word whose low `nbits` bits are those of `w` placed where `step` fetches next. -/
def State.withFetchWord (s : State) (nbits w : Nat) : State := placeWord s (tableWord nbits w)

end Sys2Proof.Machine
end

