-- ==== Sys2Proof/Machine/Text.lean ====
section
/-! DEFINITION. Decimal digits in text, shared by the dump port's range (70_reset_and_hazards.md R114) and the
assembler's literals (30_encoding.md R64). Text is a list of characters. -/

namespace Sys2Proof.Machine

/-- The value of a decimal digit `0` to `9`. -/
def digitValue (c : Char) : Option Nat :=
  if 48 ≤ c.toNat ∧ c.toNat ≤ 57 then some (c.toNat - 48) else none

/-- The value of a run of digits after the value `n` already read. Leading zeros change nothing. -/
def digitsValue : Nat → List Char → Option Nat
  | n, [] => some n
  | n, c :: cs =>
    match digitValue c with
    | some d => digitsValue (n * 10 + d) cs
    | none => none

/-- `digit+` over the whole text, and its value. -/
def number (cs : List Char) : Option Nat := if cs = [] then none else digitsValue 0 cs

end Sys2Proof.Machine
end

