-- ==== Sys2Proof/Machine/Assembler.lean ====
section
/-! DEFINITION. The assembler: the toolchain's text to an image and a decode log (30_encoding.md R62 to R70). It is
no part of the core; 00_scope.md R3 puts it in the spec's scope. The source is given as its sequence of lines. -/

namespace Sys2Proof.Machine

/-- The four mnemonics (30_encoding.md R62). -/
inductive Mnemonic where
  | writeMem
  | loadConst
  | unarySgn
  | readMem
  deriving DecidableEq, Repr

/-- The upper-case spelling of a mnemonic. -/
def Mnemonic.chars : Mnemonic → List Char
  | .writeMem => ['W', 'R', 'I', 'T', 'E', '_', 'M', 'E', 'M']
  | .loadConst => ['L', 'O', 'A', 'D', '_', 'C', 'O', 'N', 'S', 'T']
  | .unarySgn => ['U', 'N', 'A', 'R', 'Y', '_', 'S', 'G', 'N']
  | .readMem => ['R', 'E', 'A', 'D', '_', 'M', 'E', 'M']

/-- The mnemonic of an instruction. -/
def mnemonicOfInstr : Instr → Mnemonic
  | .writeMem _ => .writeMem
  | .loadConst _ => .loadConst
  | .unarySgn => .unarySgn
  | .readMem => .readMem

/-- A letter `a` to `z` as its upper case; any other character as it is. -/
def upperChar (c : Char) : Char :=
  if 97 ≤ c.toNat ∧ c.toNat ≤ 122 then Char.ofNat (c.toNat - 32) else c

/-- Case-insensitive match of a token against the four mnemonics (30_encoding.md R62). -/
def mnemonicOfToken (tok : List Char) : Option Mnemonic :=
  [Mnemonic.writeMem, .loadConst, .unarySgn, .readMem].find? fun m => decide (m.chars = tok.map upperChar)

/-- The line without the suffix that starts at its first `#` (30_encoding.md R62). -/
def stripComment (line : List Char) : List Char := line.takeWhile (· ≠ '#')

/-- White space is space or tab (30_encoding.md R63). -/
def isWs (c : Char) : Bool := c = ' ' || c = '\t'

/-- The tokens of the rest of a line, with the characters of the current token read so far. -/
def tokensFrom : List Char → List Char → List (List Char)
  | cur, [] => if cur = [] then [] else [cur]
  | cur, c :: cs =>
    if isWs c then (if cur = [] then tokensFrom [] cs else cur :: tokensFrom [] cs)
    else tokensFrom (cur ++ [c]) cs

/-- The white-space-separated tokens of a line after its comment is removed (30_encoding.md R62). -/
def lineTokens (line : List Char) : List (List Char) := tokensFrom [] (stripComment line)

/-- An operand literal: an optional sign and `digit+`, decimal (30_encoding.md R63, R64; decision D13). -/
def literalValue : List Char → Option Int
  | '-' :: ds => (number ds).map fun n : Nat => -(n : Int)
  | '+' :: ds => (number ds).map fun n : Nat => (n : Int)
  | ds => (number ds).map fun n : Nat => (n : Int)

/-- The four assembly errors of 30_encoding.md R66. -/
inductive LineError where
  | unknownMnemonic
  | operandCount
  | malformedLiteral
  | outOfRange
  deriving DecidableEq, Repr

/-- An instruction with one operand: the literal read, then the encoder's range check (30_encoding.md R60, R64). -/
def withOperand (mk : Int → Instr) (tok : List Char) : Except LineError Instr :=
  match literalValue tok with
  | none => .error .malformedLiteral
  | some v =>
    match encodeChecked (mk v) with
    | .ok _ => .ok (mk v)
    | .error _ => .error .outOfRange

/-- The tokens of one line as an instruction: the mnemonic, then the operand count (30_encoding.md R65), then the
literal, then its range. Which error a line with several reports is the model's choice (log 10). -/
def assembleTokens (mnemonic : List Char) (operands : List (List Char)) : Except LineError Instr :=
  match mnemonicOfToken mnemonic, operands with
  | none, _ => .error .unknownMnemonic
  | some .loadConst, [x] => withOperand .loadConst x
  | some .writeMem, [x] => withOperand .writeMem x
  | some .unarySgn, [] => .ok .unarySgn
  | some .readMem, [] => .ok .readMem
  | some _, _ => .error .operandCount

/-- One source line: nothing for a blank or comment line, else its instruction (30_encoding.md R62). -/
def assembleLine (line : List Char) : Except LineError (Option Instr) :=
  match lineTokens line with
  | [] => .ok none
  | tok :: operands =>
    match assembleTokens tok operands with
    | .ok i => .ok (some i)
    | .error e => .error e

/-- What the assembler reports: the 1-based line number and the text of the line (30_encoding.md R66). The kind is
the model's own label. -/
structure AsmError where
  lineNumber : Nat
  text : List Char
  kind : LineError
  deriving DecidableEq, Repr

/-- The instructions of the accepted lines, in source order, from line number `n` on; the first bad line is the one
reported, and skipped lines count in the numbering (30_encoding.md R62, R66). -/
def assembleFrom : Nat → List (List Char) → Except AsmError (List Instr)
  | _, [] => .ok []
  | n, line :: rest =>
    match assembleLine line with
    | .error k => .error ⟨n, line, k⟩
    | .ok none => assembleFrom (n + 1) rest
    | .ok (some i) =>
      match assembleFrom (n + 1) rest with
      | .ok is => .ok (i :: is)
      | .error e => .error e

/-- One record of the decode log (30_encoding.md R68). -/
structure LogRecord where
  mnemonic : Mnemonic
  tag : Nat
  operand : Int
  raw : List Byte
  deriving DecidableEq, Repr

/-- The log record of an emitted instruction: `B` is the operand as written (30_encoding.md R61, R68). -/
def logRecord (i : Instr) : LogRecord := ⟨mnemonicOfInstr i, opTag i, displayOperand i, encodeBytes i⟩

/-- What a successful assembly writes (30_encoding.md R67). -/
structure AsmOutput where
  image : List Byte
  log : List LogRecord
  deriving DecidableEq, Repr

/-- The image and the log of a list of instructions (30_encoding.md R67). -/
def emit (is : List Instr) : AsmOutput := ⟨is.flatMap encodeBytes, is.map logRecord⟩

/-- The assembler: the whole output, or the first error and nothing written (30_encoding.md R66, R67). -/
def assemble (lines : List (List Char)) : Except AsmError AsmOutput :=
  match assembleFrom 1 lines with
  | .ok is => .ok (emit is)
  | .error e => .error e

/-- The assembler's exit status: 0 on success (30_encoding.md R67), 1 on an error (R66). -/
def asmExitStatus (lines : List (List Char)) : Nat :=
  match assemble lines with
  | .ok _ => 0
  | .error _ => 1

end Sys2Proof.Machine
end

