-- ==== Sys2Proof/Machine/Flags.lean ====
section
/-! DEFINITION. The core has no flags, condition codes or predicates (10_state.md R25). Its only status is the run
state and the fault record (R26): this file gives their codes and the `status` port (R29, R30). -/

namespace Sys2Proof.Machine

/-- The status codes of 10_state.md R30. -/
def RunState.code : RunState → Nat
  | .running => 0
  | .haltedNormally => 1
  | .haltedTruncated => 2
  | .aborted _ => 3

/-- The cause codes of 60_exceptions.md R93. -/
def FaultCause.code : FaultCause → Nat
  | .memOutOfRange => 1
  | .unknownOpcode => 2
  | .accUnwritten => 3
  | .badDumpRange => 4

/-- The fault record, readable only when Aborted (10_state.md R24). -/
def State.faultRecord (s : State) : Option FaultRecord :=
  match s.runState with
  | .aborted f => some f
  | _ => none

/-- What the `status` port carries: the code, and when it is 3 the cause code and the info (10_state.md R30). -/
structure Status where
  code : Nat
  fault : Option (Nat × Int)
  deriving DecidableEq, Repr

/-- The `status` port, always readable (10_state.md R29). -/
def State.status (s : State) : Status :=
  ⟨s.runState.code, s.faultRecord.map fun f => (f.cause.code, f.info)⟩

end Sys2Proof.Machine
end

