-- ==== Sys2Proof/Machine/HostPort.lean ====
section
/-! DEFINITION. The host's side of the core: reset, run, dump and exit (10_state.md R29; 70_reset_and_hazards.md R109
to R117, R123). The host has no other way to act on the core (R117). -/

namespace Sys2Proof.Machine

/-- The `reset` port: every piece of state at its reset value, with the image and parameter supplied before
(70_reset_and_hazards.md R109, R111; 60_exceptions.md R99: the only way to run again). -/
def State.restart (s : State) : State := State.resetWith s.accReset s.image

/-- The host asks for `n` steps: those the core takes before it leaves Running (70_reset_and_hazards.md R111, R117).
A run that is killed is one whose host asks for no more (60_exceptions.md R101; log 9). -/
def runSteps : Nat → State → State
  | 0, s => s
  | n + 1, s =>
    match step s with
    | .next t => runSteps n t
    | .fault _ => s
    | .refused _ => s

/-- A run from reset, for as many steps as any run of that image takes (40_sequencer.md R81). -/
def wholeRun (p : Config.AccReset) (img : List Byte) : State :=
  runSteps (img.length / 4 + 1) (State.resetWith p img)

/-- The core has halted: the run states in which the dump port answers (70_reset_and_hazards.md R113). -/
def State.halted (s : State) : Bool :=
  match s.runState with
  | .haltedNormally => true
  | .haltedTruncated => true
  | .running => false
  | .aborted _ => false

/-- One record of the snapshot (70_reset_and_hazards.md R113). -/
structure DumpRecord where
  address : Nat
  value : Int
  deriving DecidableEq, Repr

/-- The range argument read by the grammar `digit+ ':' digit+` over the whole string (70_reset_and_hazards.md R114;
decision D16). -/
def parseRange (text : List Char) : Option (Nat × Nat) :=
  match number (text.takeWhile (· ≠ ':')), text.dropWhile (· ≠ ':') with
  | some lo, _ :: rest =>
    match number rest with
    | some hi => some (lo, hi)
    | none => none
  | _, _ => none

/-- The range the dump port accepts: well formed, with `0 <= start <= end <= 1023` (70_reset_and_hazards.md R114). -/
def validRange (text : List Char) : Option (Nat × Nat) :=
  match parseRange text with
  | some (lo, hi) => if lo ≤ hi ∧ hi < Config.memCells then some (lo, hi) else none
  | none => none

/-- The records of an inclusive range, in ascending order (70_reset_and_hazards.md R113). -/
def State.snapshot (s : State) (lo hi : Nat) : List DumpRecord :=
  (List.range (hi + 1 - lo)).map fun k => ⟨lo + k, (s.mem.read (lo + k)).toInt⟩

/-- What the `dump` port answers. -/
inductive DumpResult where
  /-- The core has not halted: "never after Aborted", and not while Running (70_reset_and_hazards.md R113). -/
  | noDump
  /-- The request is rejected; the cause is BadDumpRange (60_exceptions.md R93, code 4). -/
  | rejected (cause : FaultCause)
  | snapshot (records : List DumpRecord)
  deriving DecidableEq, Repr

/-- The `dump` port. It reads the state and changes none of it: `runState` stays halted on a bad range
(70_reset_and_hazards.md R113, R114). -/
def State.dump (s : State) (range : List Char) : DumpResult :=
  if s.halted then
    match validRange range with
    | some (lo, hi) => .snapshot (s.snapshot lo hi)
    | none => .rejected .badDumpRange
  else .noDump

/-- The outcome of a run that has ended (70_reset_and_hazards.md R112): all or nothing (R116). -/
inductive RunOutcome where
  | success (records : List DumpRecord)
  | failure
  deriving DecidableEq, Repr

/-- The outcome; none while the core is Running, which is also what a killed run leaves (60_exceptions.md R101). If
the run aborted, that is the failure, whatever the range (70_reset_and_hazards.md R114). -/
def State.outcome (s : State) (range : List Char) : Option RunOutcome :=
  match s.runState with
  | .running => none
  | .aborted _ => some .failure
  | .haltedNormally | .haltedTruncated =>
    match s.dump range with
    | .snapshot rs => some (.success rs)
    | .rejected _ => some .failure
    | .noDump => some .failure

/-- The exit status of an outcome (70_reset_and_hazards.md R115). -/
def RunOutcome.exitStatus : RunOutcome → Nat
  | .success _ => 0
  | .failure => 1

/-- The `exit` port. -/
def State.exitStatus (s : State) (range : List Char) : Option Nat := (s.outcome range).map RunOutcome.exitStatus

/-- What a claim about a run observes (70_reset_and_hazards.md R123): the exit status and the snapshot, if any, and
the status port. -/
structure Observation where
  exit : Option Nat
  snapshot : Option (List DumpRecord)
  status : Status
  deriving DecidableEq, Repr

/-- The observation of a state the host has let the core reach. -/
def State.observe (s : State) (range : List Char) : Observation where
  exit := s.exitStatus range
  snapshot :=
    match s.outcome range with
    | some (.success rs) => some rs
    | some .failure => none
    | none => none
  status := s.status

end Sys2Proof.Machine
end

