-- ==== Sys2Proof/Safety.lean ====
section
/-! DEFINITION. The invariants the spec states of every reachable state, and what counts as a safe run: one that has
not aborted (00_scope.md R10; 70_reset_and_hazards.md R123). -/

namespace Sys2Proof.Machine

/-- A value in [-128, 127], where 10_state.md R18 says every value lies. -/
abbrev Value.small (v : Value) : Prop := -128 ≤ v.toInt ∧ v.toInt ≤ 127

/-- The value-range invariant of 10_state.md R18: the accumulator, once it has a value, and every cell. -/
abbrev State.ValuesSmall (s : State) : Prop :=
  (s.accReadable = true → Value.small s.acc) ∧ ∀ c ∈ s.mem, Value.small c.2

/-- The `ip` invariant of 10_state.md R22: a multiple of 4 that never exceeds the image length. -/
abbrev State.IpInImage (s : State) : Prop := s.ip % 4 = 0 ∧ s.ip ≤ s.image.length

/-- Under `ACC_RESET = Zero` the bit `accWritten` is absent (10_state.md R19): constantly false here. -/
abbrev State.FlagAbsent (s : State) : Prop := s.accReset = .zero → s.accWritten = false

/-- A fault record that 60_exceptions.md R93 lists, with the info values it gives for the core's own faults. -/
abbrev FaultRecord.legal (f : FaultRecord) : Prop :=
  (f.cause = .memOutOfRange ∧ ((-128 ≤ f.info ∧ f.info ≤ -1) ∨ (1024 ≤ f.info ∧ f.info ≤ 0xFFFFFF))) ∨
  (f.cause = .unknownOpcode ∧ 4 ≤ f.info ∧ f.info ≤ 7) ∨
  (f.cause = .accUnwritten ∧ (f.info = 0 ∨ f.info = 2 ∨ f.info = 3))

/-- The fault record of an Aborted core is one that 60_exceptions.md R93 lists, and AccUnwritten stands there only
under `ACC_RESET = Unwritten` with the accumulator still unwritten (10_state.md R19). -/
abbrev State.RecordLegal (s : State) : Prop :=
  ∀ f ∈ s.faultRecord, f.legal ∧ (f.cause = .accUnwritten → s.accReset = .unwritten ∧ s.accWritten = false)

/-- The invariant of the core. -/
abbrev State.Inv (s : State) : Prop :=
  s.mem.wf = true ∧ s.ValuesSmall ∧ s.IpInImage ∧ s.FlagAbsent ∧ s.RecordLegal

/-- The next step of this state completes a WRITE_MEM to cell `a`: the sequencer fetches the instruction
(40_sequencer.md R75, R76), its address is `a` and in range, and the accumulator may be read (41_load_store.md R84). -/
abbrev State.storesTo (s : State) (a : Nat) : Prop :=
  s.runState = .running ∧ 4 ≤ s.remaining ∧ bits s.fetchWord 2 0 = 0 ∧ bits s.fetchWord 26 3 = a ∧ a < 1024 ∧
    s.accReadable = true

/-- The core has not aborted: the states about which a claim on the snapshot may speak (70_reset_and_hazards.md R123). -/
abbrev State.Safe (s : State) : Prop := s.faultRecord = none

end Sys2Proof.Machine
end

