-- ==== Sys2Proof/Certificates/Slice0/Obligations.lean ====
section
/-! DEFINITION. The statements for the provers. Each docstring names the rule of spec/ it states, or, for a derived
statement, the sections it rests on and any choice of the model's own (log n is notes/assumptions/n.md). -/

open Sys2Proof Sys2Proof.Machine

/-- 42_alu.md R87: `sext_8` by its two cases, its range, and its inverse on [-128, 127]. -/
def Obligations.SignExtensionAndItsInverse : Prop :=
  (∀ u : Nat, u ≤ 255 →
    (u ≤ 127 → sext8 u = (u : Int)) ∧ (128 ≤ u → sext8 u = (u : Int) - 256) ∧ -128 ≤ sext8 u ∧ sext8 u ≤ 127) ∧
  ∀ v : Int, -128 ≤ v → v ≤ 127 → sext8 (v % 256).toNat = v

/-- 30_encoding.md R55: the opcode map is total and reads the tag alone; the mask of every row is 7. The operands are
those of R52 and R53. -/
def Obligations.OpcodeMapIsTotalAndReadsTheTag : Prop :=
  ∀ w : Word,
    (w &&& 0x00000007).toNat = bits w 2 0 ∧ bits w 2 0 ≤ 7 ∧
    (bits w 2 0 = 0 → decodeWord w = .instr (.writeMem (bits w 26 3))) ∧
    (bits w 2 0 = 1 → decodeWord w = .instr (.loadConst (sext8 (bits w 10 3)))) ∧
    (bits w 2 0 = 2 → decodeWord w = .instr .unarySgn) ∧
    (bits w 2 0 = 3 → decodeWord w = .instr .readMem) ∧
    (4 ≤ bits w 2 0 → decodeWord w = .illegal (bits w 2 0))

/-- 30_encoding.md R57: two fetched words that differ only in bits outside the operand field of their opcode are one
instruction, and the steps that execute them are the same, faults included. The images may differ elsewhere too: a
word is decoded on its own (R49). -/
def Obligations.IgnoredBitsChangeNothing : Prop :=
  ∀ (s : State) (img : List Byte), s.runState = .running → img.length = s.image.length → 4 ≤ s.remaining →
    bits { s with image := img }.fetchWord 2 0 = bits s.fetchWord 2 0 →
    (bits s.fetchWord 2 0 = 1 → bits { s with image := img }.fetchWord 10 3 = bits s.fetchWord 10 3) →
    (bits s.fetchWord 2 0 = 0 → bits { s with image := img }.fetchWord 26 3 = bits s.fetchWord 26 3) →
    decodeWord { s with image := img }.fetchWord = decodeWord s.fetchWord ∧
    ∃ t, step s = .next t ∧ step { s with image := img } = .next { t with image := img }

/-- 30_encoding.md R71, for every well-formed instruction and every operand, not only the boundary ones: the encoder
accepts it, the codec reads back its `(A, B)` pair, and its bytes decode to it, whatever bytes follow. -/
def Obligations.EncodedInstructionsDecodeToThemselves : Prop :=
  ∀ i : Instr, i.wellFormed = true →
    encodeChecked i = .ok (encode i, displayOperand i) ∧
    codecDecode (encode i) = (opTag i, rawOperand i) ∧
    decodeWord (encode i) = .instr i ∧
    ∀ rest : List Byte, decode (encodeBytes i ++ rest) = .ok (i, rest)

/-- Derived from 30_encoding.md R57 and R70: what the decoder gives is well formed, and encoding it gives the word with
its ignored bits cleared. -/
def Obligations.DecodedWordsEncodeToTheirCanonicalWord : Prop :=
  ∀ (w : Word) (i : Instr), decodeWord w = .instr i → i.wellFormed = true ∧ encode i = clearIgnored w

/-- 30_encoding.md R59: the packing, `(B_raw << 3) | A`, with each opcode's `B_raw`. -/
def Obligations.PackingOfEachInstruction : Prop :=
  (∀ v : Int, -128 ≤ v → v ≤ 127 → (encode (.loadConst v)).toNat = ((v % 256).toNat <<< 3) ||| 1) ∧
  (∀ a : Int, 0 ≤ a → a ≤ 0xFFFFFF → (encode (.writeMem a)).toNat = a.toNat <<< 3) ∧
  (encode .readMem).toNat = 3 ∧ (encode .unarySgn).toNat = 2

/-- Derived from 30_encoding.md R60 and R61: the encoder succeeds exactly in the assembler range, with the display
operand the operand as written, and fails with a range error outside it. -/
def Obligations.EncoderChecksTheOperandRange : Prop :=
  (∀ v : Int, (-128 ≤ v ∧ v ≤ 127 → encodeChecked (.loadConst v) = .ok (encode (.loadConst v), v)) ∧
    (v < -128 ∨ 127 < v → encodeChecked (.loadConst v) = .error (.outOfRange v))) ∧
  (∀ a : Int, (0 ≤ a ∧ a ≤ 0xFFFFFF → encodeChecked (.writeMem a) = .ok (encode (.writeMem a), a)) ∧
    (a < 0 ∨ 0xFFFFFF < a → encodeChecked (.writeMem a) = .error (.outOfRange a))) ∧
  encodeChecked .readMem = .ok (3, 0) ∧ encodeChecked .unarySgn = .ok (2, 0)

/-- 20_memory.md R35: words are little-endian in the image, and the fetch reads the four bytes at `ip` so. -/
def Obligations.ImageWordsAreLittleEndian : Prop :=
  (∀ w : Word, ∃ b0 b1 b2 b3 : Byte, bytesOfWord w = [b0, b1, b2, b3] ∧
    w.toNat = b0.toNat + 2 ^ 8 * b1.toNat + 2 ^ 16 * b2.toNat + 2 ^ 24 * b3.toNat) ∧
  ∀ (s : State) (before after : List Byte) (b0 b1 b2 b3 : Byte),
    s.image = before ++ [b0, b1, b2, b3] ++ after → s.ip = before.length →
    s.fetchWord.toNat = b0.toNat + 2 ^ 8 * b1.toNat + 2 ^ 16 * b2.toNat + 2 ^ 24 * b3.toNat

/-- Words written out bit by bit from 30_encoding.md R51 and 95_test_vectors.md E6 and 2.1. -/
def Obligations.SpelledWordsDecode : Prop :=
  decodeWord 0b00000000000000000000000001010000#32 = .instr (.writeMem 10) ∧
  decodeWord 0b00000111111111111111111111111000#32 = .instr (.writeMem 16777215) ∧
  decodeWord 0b00000000000000000000011111001001#32 = .instr (.loadConst (-7)) ∧
  decodeWord 0b11111111111111111111111111111001#32 = .instr (.loadConst (-1)) ∧
  decodeWord 0b00000000000000000000000000000010#32 = .instr .unarySgn ∧
  decodeWord 0b11111111111111111111111111111011#32 = .instr .readMem ∧
  decodeWord 0b11111111111111111111111111111100#32 = .illegal 4

/-- 41_load_store.md R83, with its encoding: LOAD_CONST completes in every state, loads the sign-extended constant, and
changes nothing but `acc`, `accWritten` (under `ACC_RESET = Unwritten`) and `ip`. -/
def Obligations.LoadConstLoadsTheConstant : Prop :=
  (∀ w : Word, bits w 2 0 = 1 → decodeWord w = .instr (.loadConst (sext8 (bits w 10 3)))) ∧
  ∀ (v : Int) (s : State), -128 ≤ v → v ≤ 127 →
    (encode (.loadConst v)).toNat = (v % 256).toNat * 8 + 1 ∧
    ∃ t, exec (.loadConst v) s = .next t ∧
      t.acc.toInt = v ∧
      (s.accReset = .unwritten → t.accWritten = true) ∧ (s.accReset = .zero → t.accWritten = s.accWritten) ∧
      t.ip = s.ip + 4 ∧ t.runState = s.runState ∧ t.image = s.image ∧ t.accReset = s.accReset ∧
      ∀ a : Nat, t.mem.read a = s.mem.read a

/-- 41_load_store.md R84, with its encoding: WRITE_MEM completes when the address is in range and the accumulator may
be read; the address is checked first. Memory is canonical, an invariant of its own (`MemoryStaysCanonical`). -/
def Obligations.WriteMemStoresTheAccumulator : Prop :=
  (∀ w : Word, bits w 2 0 = 0 → decodeWord w = .instr (.writeMem (bits w 26 3))) ∧
  ∀ (a : Int) (s : State), 0 ≤ a → a ≤ 0xFFFFFF → s.mem.wf = true →
    (encode (.writeMem a)).toNat = a.toNat * 8 ∧
    (a ≤ 1023 → s.accReset = .zero ∨ s.accWritten = true →
      ∃ t, exec (.writeMem a) s = .next t ∧
        t.mem.read a.toNat = s.acc ∧ (∀ b : Nat, b ≠ a.toNat → t.mem.read b = s.mem.read b) ∧
        t.acc = s.acc ∧ t.accWritten = s.accWritten ∧
        t.ip = s.ip + 4 ∧ t.runState = s.runState ∧ t.image = s.image ∧ t.accReset = s.accReset) ∧
    (1023 < a → exec (.writeMem a) s = .next { s with runState := .aborted ⟨.memOutOfRange, a⟩ }) ∧
    (a ≤ 1023 → s.accReset = .unwritten → s.accWritten = false →
      exec (.writeMem a) s = .next { s with runState := .aborted ⟨.accUnwritten, 0⟩ })

/-- 41_load_store.md R85, with its encoding: READ_MEM completes when the accumulator may be read and lies in range; it
loads the cell the accumulator addresses. The accumulator-written check comes first. -/
def Obligations.ReadMemLoadsTheAddressedCell : Prop :=
  (∀ w : Word, bits w 2 0 = 3 → decodeWord w = .instr .readMem) ∧ encode .readMem = 3 ∧
  ∀ s : State,
    (s.accReset = .zero ∨ s.accWritten = true → 0 ≤ s.acc.toInt → s.acc.toInt ≤ 1023 →
      ∃ t, exec .readMem s = .next t ∧
        t.acc = s.mem.read s.acc.toInt.toNat ∧ t.accWritten = s.accWritten ∧
        (∀ b : Nat, t.mem.read b = s.mem.read b) ∧
        t.ip = s.ip + 4 ∧ t.runState = s.runState ∧ t.image = s.image ∧ t.accReset = s.accReset) ∧
    (s.accReset = .zero ∨ s.accWritten = true → s.acc.toInt < 0 ∨ 1023 < s.acc.toInt →
      exec .readMem s = .next { s with runState := .aborted ⟨.memOutOfRange, s.acc.toInt⟩ }) ∧
    (s.accReset = .unwritten → s.accWritten = false →
      exec .readMem s = .next { s with runState := .aborted ⟨.accUnwritten, 3⟩ })

/-- 42_alu.md R89, with its encoding: UNARY_SGN completes when the accumulator may be read and lies in range; it loads
the sign of the cell the accumulator addresses and writes no cell. -/
def Obligations.UnarySgnLoadsTheSignOfTheAddressedCell : Prop :=
  (∀ w : Word, bits w 2 0 = 2 → decodeWord w = .instr .unarySgn) ∧ encode .unarySgn = 2 ∧
  ∀ s : State,
    (s.accReset = .zero ∨ s.accWritten = true → 0 ≤ s.acc.toInt → s.acc.toInt ≤ 1023 →
      ∃ t, exec .unarySgn s = .next t ∧
        (0 < (s.mem.read s.acc.toInt.toNat).toInt → t.acc.toInt = 1) ∧
        ((s.mem.read s.acc.toInt.toNat).toInt < 0 → t.acc.toInt = -1) ∧
        ((s.mem.read s.acc.toInt.toNat).toInt = 0 → t.acc.toInt = 0) ∧
        t.accWritten = s.accWritten ∧ (∀ b : Nat, t.mem.read b = s.mem.read b) ∧
        t.ip = s.ip + 4 ∧ t.runState = s.runState ∧ t.image = s.image ∧ t.accReset = s.accReset) ∧
    (s.accReset = .zero ∨ s.accWritten = true → s.acc.toInt < 0 ∨ 1023 < s.acc.toInt →
      exec .unarySgn s = .next { s with runState := .aborted ⟨.memOutOfRange, s.acc.toInt⟩ }) ∧
    (s.accReset = .unwritten → s.accWritten = false →
      exec .unarySgn s = .next { s with runState := .aborted ⟨.accUnwritten, 2⟩ })

/-- 42_alu.md R88: the sign function by its three cases, and its range. -/
def Obligations.SignFunction : Prop :=
  ∀ v : Int, (v > 0 → sgn v = 1) ∧ (v < 0 → sgn v = -1) ∧ (v = 0 → sgn v = 0) ∧
    (sgn v = -1 ∨ sgn v = 0 ∨ sgn v = 1)

/-- 40_sequencer.md R75, R76: a step of a Running core runs the instruction that the bytes at `ip` decode to; the step
adds nothing around `exec`, which advances `ip` itself. -/
def Obligations.StepRunsTheDecodedInstruction : Prop :=
  ∀ (s : State) (i : Instr) (rest : List Byte),
    s.runState = .running → decode (s.image.drop s.ip) = .ok (i, rest) → step s = exec i s

/-- 30_encoding.md R56: tags 4 to 7 abort with UnknownOpcode and the tag, whatever the rest of the word. -/
def Obligations.IllegalTagsAbort : Prop :=
  ∀ s : State, s.runState = .running → 4 ≤ s.remaining → 4 ≤ bits s.fetchWord 2 0 →
    step s = .next { s with runState := .aborted ⟨.unknownOpcode, bits s.fetchWord 2 0⟩ }

/-- 40_sequencer.md R73: with no byte remaining the step halts normally and changes nothing else; an empty image halts
at the first step; both halts give the same outputs. -/
def Obligations.EndOfImageHaltsNormally : Prop :=
  (∀ s : State, s.runState = .running → (s.image.length : Int) - s.ip = 0 →
    step s = .next { s with runState := .haltedNormally }) ∧
  (∀ p : Config.AccReset,
    step (State.resetWith p []) = .next { State.resetWith p [] with runState := .haltedNormally }) ∧
  ∀ (s : State) (range : List Char),
    State.outcome { s with runState := .haltedNormally } range =
      State.outcome { s with runState := .haltedTruncated } range

/-- 40_sequencer.md R74: with 1 to 3 bytes remaining the step halts truncated and changes nothing else, whatever the
bytes; it is no fault. -/
def Obligations.TruncatedImageHalts : Prop :=
  ∀ s : State, s.runState = .running → 0 < (s.image.length : Int) - s.ip → (s.image.length : Int) - s.ip < 4 →
    ∃ t, step s = .next t ∧ t = { s with runState := .haltedTruncated } ∧ t.faultRecord = none ∧
      ∀ range : List Char, validRange range ≠ none → t.exitStatus range = some 0

/-- 40_sequencer.md R79, with the totality of R82: a step exists exactly in Running, and once the core has left Running
nothing changes. -/
def Obligations.StepsExistExactlyWhileRunning : Prop :=
  (∀ s : State, (∃ t, step s = .next t) ↔ s.runState = .running) ∧
  ∀ (s : State) (n : Nat), s.runState ≠ .running → runSteps n s = s

/-- 40_sequencer.md R77: a step after which the core is still Running advanced `ip` by 4, within the image; no other
step writes `ip`. -/
def Obligations.CompletedStepsAdvanceByFour : Prop :=
  ∀ s t : State, step s = .next t →
    (t.runState = .running → t.ip = s.ip + 4 ∧ t.ip ≤ t.image.length) ∧
    (t.runState ≠ .running → t.ip = s.ip)

/-- 60_exceptions.md R95, R96 and 40_sequencer.md R78: a step that aborts changes the run state, with its fault record,
and nothing else. -/
def Obligations.FaultsArePrecise : Prop :=
  ∀ (s t : State) (f : FaultRecord), step s = .next t → t.runState = .aborted f →
    t = { s with runState := .aborted f }

/-- 10_state.md R21: a step after which some cell reads otherwise executed WRITE_MEM to that cell. Memory is canonical,
an invariant of its own (`MemoryStaysCanonical`). -/
def Obligations.OnlyWriteMemChangesACell : Prop :=
  ∀ (s t : State) (a : Nat), s.mem.wf = true → step s = .next t → t.mem.read a ≠ s.mem.read a →
    4 ≤ s.remaining ∧ decodeWord s.fetchWord = .instr (.writeMem a) ∧ a ≤ 1023 ∧ t.mem.read a = s.acc ∧
      t.runState = .running

/-- 70_reset_and_hazards.md R122: no number of steps changes the image, so each fetch reads the bytes the host
supplied; the parameter `ACC_RESET` is constant too (10_state.md R33). -/
def Obligations.ImageAndParameterAreConstant : Prop :=
  ∀ (s : State) (n : Nat), (runSteps n s).image = s.image ∧ (runSteps n s).accReset = s.accReset

/-- 10_state.md R23: the transitions, all from Running, each under its condition. The premise is the `ip` invariant
(`IpStaysAlignedInTheImage`). -/
def Obligations.TransitionsLeaveRunningOnly : Prop :=
  ∀ s t : State, s.IpInImage → step s = .next t →
    s.runState = .running ∧
    (t.runState = .haltedNormally ↔ s.ip = s.image.length) ∧
    (t.runState = .haltedTruncated ↔ s.ip < s.image.length ∧ s.image.length < s.ip + 4) ∧
    ((t.runState = .running ∨ ∃ f, t.runState = .aborted f) ↔ s.ip + 4 ≤ s.image.length)

/-- 60_exceptions.md R97: which check of a step is the one reported. -/
def Obligations.FirstFailingCheckIsReported : Prop :=
  ∀ s t : State, s.runState = .running → step s = .next t →
    (s.remaining < 4 → t.faultRecord = none) ∧
    (4 ≤ s.remaining → 4 ≤ bits s.fetchWord 2 0 → t.faultRecord = some ⟨.unknownOpcode, bits s.fetchWord 2 0⟩) ∧
    (4 ≤ s.remaining → bits s.fetchWord 2 0 = 0 → t.faultRecord =
      if 1023 < bits s.fetchWord 26 3 then some ⟨.memOutOfRange, bits s.fetchWord 26 3⟩
      else if s.accReset = .unwritten ∧ s.accWritten = false then some ⟨.accUnwritten, 0⟩ else none) ∧
    (4 ≤ s.remaining → bits s.fetchWord 2 0 = 2 ∨ bits s.fetchWord 2 0 = 3 → t.faultRecord =
      if s.accReset = .unwritten ∧ s.accWritten = false then some ⟨.accUnwritten, bits s.fetchWord 2 0⟩
      else if s.acc.toInt < 0 ∨ 1023 < s.acc.toInt then some ⟨.memOutOfRange, s.acc.toInt⟩ else none) ∧
    (4 ≤ s.remaining → bits s.fetchWord 2 0 = 1 → t.faultRecord = none)

/-- 60_exceptions.md R98: once a run has aborted, no later step changes anything, its fault record included. -/
def Obligations.FaultRecordIsNeverOverwritten : Prop :=
  ∀ (s : State) (m n : Nat) (f : FaultRecord), (runSteps n s).runState = .aborted f → n ≤ m →
    runSteps m s = runSteps n s

/-- Every step keeps data memory in its canonical form (the representation of 10_state.md R20, log 4). -/
def Obligations.MemoryStaysCanonical : Prop :=
  ∀ s t : State, s.mem.wf = true → step s = .next t → t.mem.wf = true

/-- The inductive step of 10_state.md R18: every step keeps the accumulator, once it has a value, and every cell in
[-128, 127]. -/
def Obligations.ValuesStayInSignedByteRange : Prop :=
  ∀ s t : State, s.ValuesSmall → step s = .next t → t.ValuesSmall

/-- 10_state.md R22: every step keeps `ip` a multiple of 4 that does not exceed the image length. -/
def Obligations.IpStaysAlignedInTheImage : Prop :=
  ∀ s t : State, s.IpInImage → step s = .next t → t.IpInImage

/-- 60_exceptions.md R93: every step keeps the fault record one that R93 lists, with AccUnwritten only where
`ACC_RESET = Unwritten` and the accumulator is still unwritten. -/
def Obligations.FaultRecordStaysLegal : Prop :=
  ∀ s t : State, s.ValuesSmall → step s = .next t → t.RecordLegal

/-- Reset meets the whole invariant, for every image and both values of `ACC_RESET`. Its clauses on the values (10_state.md
R18), `ip` (R22) and the fault record (60_exceptions.md R93) are the spec's. Its other two are the model's own: the canonical
memory list (log 4), and `accWritten` false under `ACC_RESET = Zero`, where the spec says the bit is absent (log 3). -/
def Obligations.ResetMeetsTheInvariant : Prop :=
  ∀ (p : Config.AccReset) (img : List Byte), (State.resetWith p img).Inv

/-- Derived: every state that a run of any image reaches, after any number of steps, meets the invariant. Its clauses on the
values (10_state.md R18), `ip` (R22) and the fault record (60_exceptions.md R93) are the spec's; the canonical memory list
(log 4) and the flag false under `ACC_RESET = Zero` (log 3) are the model's own. -/
def Obligations.EveryReachableStateMeetsTheInvariant : Prop :=
  ∀ (p : Config.AccReset) (img : List Byte) (n : Nat), (runSteps n (State.resetWith p img)).Inv

/-- Derived from 10_state.md R19: the written flag. Reset clears it, each write to `acc` sets it, nothing clears it, a read
of `acc` without it aborts; under `ACC_RESET = Zero` there is no AccUnwritten. The last clause is the model's own choice
(log 3): R19 says that under Zero the bit is absent, and no step changes the field that stands for it. -/
def Obligations.WrittenFlagRules : Prop :=
  (∀ img : List Byte, (State.resetWith .unwritten img).accWritten = false) ∧
  (∀ img : List Byte, (State.resetWith .zero img).acc.toInt = 0) ∧
  (∀ s t : State, s.accReset = .unwritten → step s = .next t →
    (4 ≤ s.remaining → t.runState = .running →
      bits s.fetchWord 2 0 = 1 ∨ bits s.fetchWord 2 0 = 2 ∨ bits s.fetchWord 2 0 = 3 → t.accWritten = true) ∧
    (s.accWritten = true → t.accWritten = true)) ∧
  (∀ s t : State, s.accReset = .unwritten → s.accWritten = false → step s = .next t → 4 ≤ s.remaining →
    (bits s.fetchWord 2 0 = 2 ∨ bits s.fetchWord 2 0 = 3 ∨
      (bits s.fetchWord 2 0 = 0 ∧ bits s.fetchWord 26 3 ≤ 1023)) →
    t.runState = .aborted ⟨.accUnwritten, bits s.fetchWord 2 0⟩) ∧
  (∀ (s t : State) (info : Int), s.accReset = .zero → step s = .next t →
    t.runState ≠ .aborted ⟨.accUnwritten, info⟩ ∧ t.accWritten = s.accWritten)

/-- 20_memory.md R42: along a run of any image, a cell reads as the value of the last WRITE_MEM to it before, or 0 if
there was none. -/
def Obligations.ReadsReturnTheLastWrite : Prop :=
  ∀ (p : Config.AccReset) (img : List Byte) (n a : Nat), a ≤ 1023 →
    ((∀ k, k < n → ¬ (runSteps k (State.resetWith p img)).storesTo a) →
      (runSteps n (State.resetWith p img)).mem.read a = 0) ∧
    (∀ k, k < n → (runSteps k (State.resetWith p img)).storesTo a →
      (∀ j, k < j → j < n → ¬ (runSteps j (State.resetWith p img)).storesTo a) →
      (runSteps n (State.resetWith p img)).mem.read a = (runSteps k (State.resetWith p img)).acc)

/-- 70_reset_and_hazards.md R109 with the table of 10_state.md R31, for every image and both values of `ACC_RESET`;
a restart keeps no state of the run before, and no number of steps leads back to Running. -/
def Obligations.ResetState : Prop :=
  (∀ (s : State) (n : Nat), s.runState ≠ .running → (runSteps n s).runState ≠ .running) ∧
  ∀ (p : Config.AccReset) (img : List Byte),
    (∀ a : Nat, a ≤ 1023 → ((State.resetWith p img).mem.read a).toInt = 0) ∧
    (p = .unwritten → (State.resetWith p img).accReadable = false ∧ (State.resetWith p img).accWritten = false) ∧
    (p = .zero → (State.resetWith p img).accReadable = true ∧ (State.resetWith p img).acc.toInt = 0) ∧
    (State.resetWith p img).ip = 0 ∧ (State.resetWith p img).runState = .running ∧
    (State.resetWith p img).faultRecord = none ∧ (State.resetWith p img).image = img ∧
    ∀ s : State, s.accReset = p → s.image = img → s.restart = State.resetWith p img

/-- Derived: the model's own choice of `State.reset` (log 2: ACC_RESET at the model's `accResetDefault`; log 6: no image
placed),
from which the first step halts normally (40_sequencer.md R73). -/
def Obligations.ResetWithNothingPlacedHalts : Prop :=
  State.reset = State.resetWith accResetDefault [] ∧
  step State.reset = .next { State.reset with runState := .haltedNormally }

/-- Derived (log 6): a word placed where the machine fetches next is the instruction the very next step runs. -/
def Obligations.PlacedWordRunsNext : Prop :=
  ∀ (s : State) (nbits w : Nat) (i : Instr), decodeTableWord nbits w = some i →
    step (s.withFetchWord nbits w) = exec i (s.withFetchWord nbits w) ∧
    { s.withFetchWord nbits w with image := s.image, runState := s.runState } = s

/-- 20_memory.md R48: with every value in [-128, 127], READ_MEM and UNARY_SGN complete exactly for `acc` in 0..127, and
raise MemOutOfRange for a negative one. -/
def Obligations.AccumulatorReachesCellsUpTo127 : Prop :=
  ∀ (s : State) (i : Instr), i = .readMem ∨ i = .unarySgn → s.runState = .running → s.ValuesSmall →
    s.accReadable = true →
    (0 ≤ s.acc.toInt → s.acc.toInt ≤ 127 ∧ ∃ t, exec i s = .next t ∧ t.runState = .running ∧ t.ip = s.ip + 4) ∧
    (s.acc.toInt < 0 → -128 ≤ s.acc.toInt ∧
      exec i s = .next { s with runState := .aborted ⟨.memOutOfRange, s.acc.toInt⟩ })

/-- Derived from 20_memory.md R48: no program can read back a cell from 128 on. Two states that differ only in those
cells step to states that differ only in those cells. -/
def Obligations.HighCellsAreWriteOnlyToAProgram : Prop :=
  ∀ (s s' : State) (m : Memory), s.ValuesSmall → s.mem.wf = true → m.wf = true →
    (∀ a, a < 128 → m.read a = s.mem.read a) → step s = .next s' →
    ∃ m', step { s with mem := m } = .next { s' with mem := m' } ∧ ∀ a, a < 128 → m'.read a = s'.mem.read a

/-- 41_load_store.md R86: the round-trip law. -/
def Obligations.RoundTripThroughMemory : Prop :=
  ∀ (a v : Int) (s : State), 0 ≤ a → a ≤ 127 → -128 ≤ v → v ≤ 127 → s.runState = .running → s.mem.wf = true →
    ∃ s1 s2 s3 s4, exec (.loadConst v) s = .next s1 ∧ exec (.writeMem a) s1 = .next s2 ∧
      exec (.loadConst a) s2 = .next s3 ∧ exec .readMem s3 = .next s4 ∧
      s4.acc.toInt = v ∧ (s4.mem.read a.toNat).toInt = v ∧
      s1.runState = .running ∧ s2.runState = .running ∧ s3.runState = .running ∧ s4.runState = .running

/-- 42_alu.md R90: the sign law. -/
def Obligations.SignLaw : Prop :=
  ∀ (a : Int) (s : State), 0 ≤ a → a ≤ 127 → s.runState = .running →
    ∃ s1 s2, exec (.loadConst a) s = .next s1 ∧ exec .unarySgn s1 = .next s2 ∧ s2.runState = .running ∧
      ((s.mem.read a.toNat).toInt > 0 → s2.acc.toInt = 1) ∧
      ((s.mem.read a.toNat).toInt < 0 → s2.acc.toInt = -1) ∧
      ((s.mem.read a.toNat).toInt = 0 → s2.acc.toInt = 0)

/-- 40_sequencer.md R81: every run ends. A run that does not abort executes `floor(L / 4)` instructions and then halts,
in one step more; one that aborts at offset `4k` has executed `k` instructions before. -/
def Obligations.EveryRunEnds : Prop :=
  ∀ (p : Config.AccReset) (img : List Byte) (n : Nat),
    (n ≤ img.length / 4 →
      ((runSteps n (State.resetWith p img)).runState = .running ∧ (runSteps n (State.resetWith p img)).ip = 4 * n) ∨
      ∃ k f, k < n ∧ (runSteps k (State.resetWith p img)).runState = .running ∧
        (runSteps (k + 1) (State.resetWith p img)).runState = .aborted f ∧
        (runSteps n (State.resetWith p img)).runState = .aborted f ∧
        (runSteps n (State.resetWith p img)).ip = 4 * k) ∧
    (img.length / 4 < n →
      (∃ f, (runSteps n (State.resetWith p img)).runState = .aborted f) ∨
      ((runSteps (img.length / 4) (State.resetWith p img)).runState = .running ∧
        (runSteps n (State.resetWith p img)).ip = 4 * (img.length / 4) ∧
        (runSteps n (State.resetWith p img)).runState =
          if img.length % 4 = 0 then .haltedNormally else .haltedTruncated))

/-- Derived from 70_reset_and_hazards.md R113: the snapshot of a valid range after a halt, and none, whatever the range,
before a halt or after an abort. R113 says only that there is no snapshot then; that a port asked for one answers `noDump`
is the model's choice (log 14). -/
def Obligations.SnapshotListsTheRange : Prop :=
  (∀ (s : State) (range : List Char) (lo hi : Nat), validRange range = some (lo, hi) →
    s.runState = .haltedNormally ∨ s.runState = .haltedTruncated →
    ∃ rs, s.dump range = .snapshot rs ∧ rs.length = hi - lo + 1 ∧
      ∀ k, k < hi - lo + 1 → rs[k]? = some ⟨lo + k, (s.mem.read (lo + k)).toInt⟩) ∧
  ∀ (s : State) (range : List Char),
    s.runState ≠ .haltedNormally → s.runState ≠ .haltedTruncated → s.dump range = .noDump

/-- 70_reset_and_hazards.md R114: the ranges accepted are exactly `digit+ ':' digit+` with `0 <= start <= end <= 1023`;
any other request after a halt is BadDumpRange, with exit status 1 and no snapshot; after an abort the range does not
matter. -/
def Obligations.DumpRangeValidation : Prop :=
  (∀ (range : List Char) (lo hi : Nat), validRange range = some (lo, hi) ↔
    ∃ ds es : List Char, range = ds ++ ':' :: es ∧ ds ≠ [] ∧ es ≠ [] ∧
      (∀ c ∈ ds ++ es, '0' ≤ c ∧ c ≤ '9') ∧
      lo = Nat.ofDigits 10 (ds.reverse.map fun c => c.toNat - '0'.toNat) ∧
      hi = Nat.ofDigits 10 (es.reverse.map fun c => c.toNat - '0'.toNat) ∧
      lo ≤ hi ∧ hi ≤ 1023) ∧
  (∀ (s : State) (range : List Char), s.halted = true → validRange range = none →
    s.dump range = .rejected .badDumpRange ∧ (s.observe range).exit = some 1 ∧ (s.observe range).snapshot = none ∧
      (s.observe range).status = s.status) ∧
  ∀ (s : State) (range : List Char) (f : FaultRecord), s.runState = .aborted f →
    (s.observe range).exit = some 1 ∧ (s.observe range).snapshot = none ∧
      (s.observe range).status = ⟨3, some (f.cause.code, f.info)⟩

/-- 70_reset_and_hazards.md R115: the exit status. None is given for a run that has not ended. -/
def Obligations.ExitStatusOfEachOutcome : Prop :=
  ∀ (s : State) (range : List Char),
    (s.halted = true → validRange range ≠ none → s.exitStatus range = some 0) ∧
    (s.halted = true → validRange range = none → s.exitStatus range = some 1) ∧
    (∀ f, s.runState = .aborted f → s.exitStatus range = some 1) ∧
    (s.runState = .running → s.exitStatus range = none)

/-- 70_reset_and_hazards.md R112, with R116: a run that has been let to its end has an outcome, a failure exactly when
it aborted or the dump request is invalid, and then with no snapshot; otherwise the snapshot of the range. A run that is
still Running (or was killed) has none. -/
def Obligations.EveryRunHasAnOutcome : Prop :=
  (∀ (p : Config.AccReset) (img : List Byte) (range : List Char),
    ((wholeRun p img).outcome range = some .failure ↔ ¬ (wholeRun p img).Safe ∨ validRange range = none) ∧
    ((wholeRun p img).outcome range = some .failure →
      (wholeRun p img).exitStatus range = some 1 ∧ ((wholeRun p img).observe range).snapshot = none) ∧
    (∀ lo hi, (wholeRun p img).Safe → validRange range = some (lo, hi) →
      (wholeRun p img).outcome range = some (.success ((wholeRun p img).snapshot lo hi)) ∧
      (wholeRun p img).exitStatus range = some 0)) ∧
  ∀ (s : State) (range : List Char), s.runState = .running → s.outcome range = none

/-- 10_state.md R30 with the cause codes of 60_exceptions.md R93: the status port. -/
def Obligations.StatusPortCodes : Prop :=
  ∀ s : State,
    (s.runState = .running → s.status = ⟨0, none⟩) ∧ (s.runState = .haltedNormally → s.status = ⟨1, none⟩) ∧
    (s.runState = .haltedTruncated → s.status = ⟨2, none⟩) ∧
    (∀ info, s.runState = .aborted ⟨.memOutOfRange, info⟩ → s.status = ⟨3, some (1, info)⟩) ∧
    (∀ info, s.runState = .aborted ⟨.unknownOpcode, info⟩ → s.status = ⟨3, some (2, info)⟩) ∧
    (∀ info, s.runState = .aborted ⟨.accUnwritten, info⟩ → s.status = ⟨3, some (3, info)⟩)

/-- Derived from 30_encoding.md R67, R68, R70. An assembly succeeds exactly if every line assembles. Its output is then made
of `is`, the instructions of the accepted lines in source order, each well formed: the image is their canonical words and
the log their records, so that the four bytes at `4k` are the word of instruction `k`, decode to it, and are the raw bytes
that record `k` shows beside its mnemonic, tag and operand. -/
def Obligations.AssembledImageDecodesToItsLog : Prop :=
  (∀ lines : List (List Char),
    (∃ out, assemble lines = .ok out) ↔ ∀ line ∈ lines, ∃ o, assembleLine line = .ok o) ∧
  ∀ (lines : List (List Char)) (out : AsmOutput), assemble lines = .ok out →
    asmExitStatus lines = 0 ∧
    ∃ (parsed : List (Option Instr)) (is : List Instr),
      lines.map assembleLine = parsed.map Except.ok ∧ is = parsed.filterMap id ∧
      (∀ i ∈ is, i.wellFormed = true) ∧
      out.image = is.flatMap encodeBytes ∧ out.log = is.map logRecord ∧
      out.image.length = 4 * is.length ∧
      ∀ (k : Nat) (i : Instr), is[k]? = some i →
        (out.image.drop (4 * k)).take 4 = bytesOfWord (encode i) ∧
        decode (out.image.drop (4 * k)) = .ok (i, out.image.drop (4 * k + 4)) ∧
        out.log[k]? = some ⟨mnemonicOfInstr i, opTag i, displayOperand i, (out.image.drop (4 * k)).take 4⟩

/-- Derived from 30_encoding.md R66 (the first bad line, decision D13): a failed assembly names the first line, counting
from 1, that is in error. That the reported text is the whole line is the model's choice (log 10). -/
def Obligations.FirstBadLineIsReported : Prop :=
  ∀ (lines : List (List Char)) (e : AsmError), assemble lines = .error e →
    ∃ before line after, lines = before ++ line :: after ∧ e.lineNumber = before.length + 1 ∧ e.text = line ∧
      assembleLine line = .error e.kind ∧ (∀ l ∈ before, ∃ o, assembleLine l = .ok o) ∧ asmExitStatus lines = 1

/-- 30_encoding.md R64 with the grammar of R63: the operand literals and their values. -/
def Obligations.OperandLiterals : Prop :=
  ∀ (tok : List Char) (v : Int), literalValue tok = some v ↔
    ∃ (sign ds : List Char), tok = sign ++ ds ∧ (sign = [] ∨ sign = ['+'] ∨ sign = ['-']) ∧ ds ≠ [] ∧
      (∀ c ∈ ds, '0' ≤ c ∧ c ≤ '9') ∧
      v = (if sign = ['-'] then -1 else 1) * ((Nat.ofDigits 10 (ds.reverse.map fun c => c.toNat - '0'.toNat) : Nat) : Int)

/-- Derived from 30_encoding.md R62: a comment does not matter, and a line of white space is skipped. -/
def Obligations.CommentsAndBlankLinesAreSkipped : Prop :=
  (∀ line comment : List Char, assembleLine (line ++ '#' :: comment) = assembleLine line) ∧
  ∀ line : List Char, (∀ c ∈ line, c = ' ' ∨ c = '\t') → assembleLine line = .ok none

/-- Derived from 10_state.md R19 and 70_reset_and_hazards.md R123, about the model's choice of log 2: under
`ACC_RESET = Unwritten`, the number an unwritten accumulator holds is never observed, however long the run. -/
def Obligations.UnwrittenAccumulatorIsUnobservable : Prop :=
  ∀ (s : State) (v : Value) (n : Nat) (range : List Char), s.accReset = .unwritten → s.accWritten = false →
    (runSteps n { s with acc := v }).observe range = (runSteps n s).observe range ∧
    ((runSteps n s).accWritten = true → runSteps n { s with acc := v } = runSteps n s)

/-- Derived from 10_state.md R20 (log 4): canonical memories that read the same on every cell are equal data. -/
def Obligations.CanonicalMemoriesAreEqualWhenTheyReadEqual : Prop :=
  ∀ m m' : Memory, m.wf = true → m'.wf = true → (∀ a, a < 1024 → m.read a = m'.read a) → m = m'

/-- Derived: every step keeps the whole invariant, from every state that meets it, and reset meets it. Its clauses on the
values (10_state.md R18), `ip` (R22) and the fault record (60_exceptions.md R93) are the spec's; the canonical memory list
(log 4) and the flag false under `ACC_RESET = Zero` (log 3) are the model's own. -/
def Obligations.EveryStepKeepsTheInvariant : Prop :=
  (∀ (p : Config.AccReset) (img : List Byte), (State.resetWith p img).Inv) ∧
  ∀ s t : State, s.Inv → step s = .next t → t.Inv

/-- Derived, about the model's choice of log 17: at an index that is no cell, where 00_scope.md R9 leaves MemRead undefined,
the read of a canonical memory answers 0. -/
def Obligations.IndicesOutsideMemoryReadZero : Prop :=
  ∀ (m : Memory) (a : Nat), m.wf = true → 1024 ≤ a → m.read a = 0
end

