-- ==== Sys2Proof/Laws/Decode.lean ====
section
/-! SUPPORT. The codec in plain arithmetic: fields as quotients and remainders, words as sums of bytes. -/

namespace Sys2Proof.Laws

/-- A field is a remainder of a quotient. -/
theorem bits_eq (w : Word) (hi lo : Nat) : bits w hi lo = w.toNat / 2 ^ lo % 2 ^ (hi + 1 - lo) := by
  rw [bits, Nat.shiftRight_eq_div_pow]

theorem bits_lt (w : Word) (hi lo : Nat) : bits w hi lo < 2 ^ (hi + 1 - lo) := Nat.mod_lt _ (by positivity)

theorem tag_lt (w : Word) : bits w 2 0 < 8 := bits_lt w 2 0
theorem imm_lt (w : Word) : bits w 10 3 < 256 := bits_lt w 10 3
theorem addr_lt (w : Word) : bits w 26 3 < 16777216 := bits_lt w 26 3

theorem sext8_small {u : Nat} (h : u < 256) : -128 ≤ sext8 u ∧ sext8 u ≤ 127 := by
  unfold sext8; split <;> omega

theorem decodeWord_of_tag0 {w : Word} (h : bits w 2 0 = 0) : decodeWord w = .instr (.writeMem (bits w 26 3)) := by
  simp only [decodeWord, h]

theorem decodeWord_of_tag1 {w : Word} (h : bits w 2 0 = 1) : decodeWord w = .instr (.loadConst (sext8 (bits w 10 3))) := by
  simp only [decodeWord, h]

theorem decodeWord_of_tag2 {w : Word} (h : bits w 2 0 = 2) : decodeWord w = .instr .unarySgn := by
  simp only [decodeWord, h]

theorem decodeWord_of_tag3 {w : Word} (h : bits w 2 0 = 3) : decodeWord w = .instr .readMem := by
  simp only [decodeWord, h]

theorem decodeWord_of_illegal {w : Word} (h : 4 ≤ bits w 2 0) : decodeWord w = .illegal (bits w 2 0) := by
  unfold decodeWord; split <;> first | rfl | omega

/-- Everything the decoder can answer, with the tag and the fields it read (30_encoding.md R55). -/
theorem decodeWord_cases (w : Word) :
    (bits w 2 0 = 0 ∧ decodeWord w = .instr (.writeMem (bits w 26 3))) ∨
    (bits w 2 0 = 1 ∧ decodeWord w = .instr (.loadConst (sext8 (bits w 10 3)))) ∨
    (bits w 2 0 = 2 ∧ decodeWord w = .instr .unarySgn) ∨
    (bits w 2 0 = 3 ∧ decodeWord w = .instr .readMem) ∨
    ((4 ≤ bits w 2 0 ∧ bits w 2 0 ≤ 7) ∧ decodeWord w = .illegal (bits w 2 0)) := by
  have h8 := tag_lt w
  have h : bits w 2 0 = 0 ∨ bits w 2 0 = 1 ∨ bits w 2 0 = 2 ∨ bits w 2 0 = 3 ∨ 4 ≤ bits w 2 0 := by omega
  rcases h with h | h | h | h | h
  · exact .inl ⟨h, decodeWord_of_tag0 h⟩
  · exact .inr (.inl ⟨h, decodeWord_of_tag1 h⟩)
  · exact .inr (.inr (.inl ⟨h, decodeWord_of_tag2 h⟩))
  · exact .inr (.inr (.inr (.inl ⟨h, decodeWord_of_tag3 h⟩)))
  · exact .inr (.inr (.inr (.inr ⟨⟨h, by omega⟩, decodeWord_of_illegal h⟩)))

/-- Four byte-sized numbers joined by shifts and ors are a sum. -/
theorem or_bytes {a b c : Nat} (d : Nat) (h0 : a < 2 ^ 8) (h1 : b < 2 ^ 8) (h2 : c < 2 ^ 8) :
    a ||| b <<< 8 ||| c <<< 16 ||| d <<< 24 = a + 256 * b + 65536 * c + 16777216 * d := by
  have l1 : b <<< 8 + a < 2 ^ 16 := by rw [Nat.shiftLeft_eq]; omega
  have l2 : c <<< 16 + (b <<< 8 + a) < 2 ^ 24 := by rw [Nat.shiftLeft_eq c]; omega
  rw [Nat.or_comm a, ← Nat.shiftLeft_add_eq_or_of_lt h0, Nat.or_comm _ (c <<< 16), ← Nat.shiftLeft_add_eq_or_of_lt l1,
    Nat.or_comm _ (d <<< 24), ← Nat.shiftLeft_add_eq_or_of_lt l2]
  simp only [Nat.shiftLeft_eq]; omega

/-- The little-endian word as a sum of its bytes (20_memory.md R35). -/
theorem wordOfBytes_toNat (b0 b1 b2 b3 : Byte) :
    (wordOfBytes b0 b1 b2 b3).toNat = b0.toNat + 256 * b1.toNat + 65536 * b2.toNat + 16777216 * b3.toNat := by
  have h0 := b0.isLt; have h1 := b1.isLt; have h2 := b2.isLt; have h3 := b3.isLt
  rw [wordOfBytes, or_bytes _ h0 h1 h2, BitVec.toNat_ofNat]
  exact Nat.mod_eq_of_lt (by omega)

/-- The bytes of a word make it up again. -/
theorem wordOfBytes_bytesOfWord (w : Word) :
    wordOfBytes (BitVec.ofNat 8 (bits w 7 0)) (BitVec.ofNat 8 (bits w 15 8)) (BitVec.ofNat 8 (bits w 23 16))
      (BitVec.ofNat 8 (bits w 31 24)) = w := by
  apply BitVec.eq_of_toNat_eq
  have := w.isLt
  simp only [wordOfBytes_toNat, BitVec.toNat_ofNat, bits_eq]
  omega

/-- `decode` on four bytes and more is `decodeWord` on their word. -/
theorem decode_bytesOfWord (w : Word) (rest : List Byte) :
    decode (bytesOfWord w ++ rest) =
      match decodeWord w with
      | .instr i => .ok (i, rest)
      | .illegal tag => .error (.unknownOpcode tag) := by
  cases h : decodeWord w <;>
    simp only [bytesOfWord, List.cons_append, List.nil_append, decode, wordOfBytes_bytesOfWord, h]

/-- The operand ranges of 30_encoding.md R51 as bounds on the operand. -/
theorem wellFormed_loadConst {v : Int} : (Instr.loadConst v).wellFormed = true ↔ -128 ≤ v ∧ v ≤ 127 := by
  simp [Instr.wellFormed, Config.immMin, Config.immMax]

theorem wellFormed_writeMem {a : Int} : (Instr.writeMem a).wellFormed = true ↔ 0 ≤ a ∧ a ≤ 16777215 := by
  simp [Instr.wellFormed, Config.addrMax]

/-- The encoder's word as a sum: the raw operand above the three tag bits (30_encoding.md R59). -/
theorem encode_toNat {i : Instr} (h : i.wellFormed = true) : (encode i).toNat = rawOperand i * 8 + opTag i := by
  have ht : opTag i < 2 ^ 3 := by cases i <;> simp [opTag]
  have hr : rawOperand i < 2 ^ 24 := by
    cases i <;> simp_all [Instr.wellFormed, rawOperand, Config.addrMax] <;> omega
  rw [encode, ← Nat.shiftLeft_add_eq_or_of_lt ht, Nat.shiftLeft_eq, BitVec.toNat_ofNat]
  omega

end Sys2Proof.Laws
end

