-- ==== Sys2Proof/Laws/State.lean ====
section
/-! SUPPORT. What each update of the state does to each field, true by rfl, so that no proof unfolds a record update. -/

namespace Sys2Proof.Laws

open Sys2Proof.Machine

@[simp] theorem setAcc_image (s : State) (v : Value) : (s.setAcc v).image = s.image := rfl
@[simp] theorem setAcc_accReset (s : State) (v : Value) : (s.setAcc v).accReset = s.accReset := rfl
@[simp] theorem setAcc_acc (s : State) (v : Value) : (s.setAcc v).acc = v := rfl
@[simp] theorem setAcc_accWritten (s : State) (v : Value) : (s.setAcc v).accWritten = (match s.accReset with | .zero => s.accWritten | .unwritten => true) := rfl
@[simp] theorem setAcc_mem (s : State) (v : Value) : (s.setAcc v).mem = s.mem := rfl
@[simp] theorem setAcc_ip (s : State) (v : Value) : (s.setAcc v).ip = s.ip := rfl
@[simp] theorem setAcc_runState (s : State) (v : Value) : (s.setAcc v).runState = s.runState := rfl

@[simp] theorem writeCell_image (s : State) (a : Nat) (v : Value) : (s.writeCell a v).image = s.image := rfl
@[simp] theorem writeCell_accReset (s : State) (a : Nat) (v : Value) : (s.writeCell a v).accReset = s.accReset := rfl
@[simp] theorem writeCell_acc (s : State) (a : Nat) (v : Value) : (s.writeCell a v).acc = s.acc := rfl
@[simp] theorem writeCell_accWritten (s : State) (a : Nat) (v : Value) : (s.writeCell a v).accWritten = s.accWritten := rfl
@[simp] theorem writeCell_mem (s : State) (a : Nat) (v : Value) : (s.writeCell a v).mem = s.mem.write a v := rfl
@[simp] theorem writeCell_ip (s : State) (a : Nat) (v : Value) : (s.writeCell a v).ip = s.ip := rfl
@[simp] theorem writeCell_runState (s : State) (a : Nat) (v : Value) : (s.writeCell a v).runState = s.runState := rfl

@[simp] theorem halt_image (s : State) (r : RunState) : (s.halt r).image = s.image := rfl
@[simp] theorem halt_accReset (s : State) (r : RunState) : (s.halt r).accReset = s.accReset := rfl
@[simp] theorem halt_acc (s : State) (r : RunState) : (s.halt r).acc = s.acc := rfl
@[simp] theorem halt_accWritten (s : State) (r : RunState) : (s.halt r).accWritten = s.accWritten := rfl
@[simp] theorem halt_mem (s : State) (r : RunState) : (s.halt r).mem = s.mem := rfl
@[simp] theorem halt_ip (s : State) (r : RunState) : (s.halt r).ip = s.ip := rfl
@[simp] theorem halt_runState (s : State) (r : RunState) : (s.halt r).runState = r := rfl

@[simp] theorem advance_image (s : State) : (s.advance).image = s.image := rfl
@[simp] theorem advance_accReset (s : State) : (s.advance).accReset = s.accReset := rfl
@[simp] theorem advance_acc (s : State) : (s.advance).acc = s.acc := rfl
@[simp] theorem advance_accWritten (s : State) : (s.advance).accWritten = s.accWritten := rfl
@[simp] theorem advance_mem (s : State) : (s.advance).mem = s.mem := rfl
@[simp] theorem advance_ip (s : State) : (s.advance).ip = s.ip + 4 := rfl
@[simp] theorem advance_runState (s : State) : (s.advance).runState = s.runState := rfl

@[simp] theorem abort_image (s : State) (f : FaultRecord) : (s.abort f).image = s.image := rfl
@[simp] theorem abort_accReset (s : State) (f : FaultRecord) : (s.abort f).accReset = s.accReset := rfl
@[simp] theorem abort_acc (s : State) (f : FaultRecord) : (s.abort f).acc = s.acc := rfl
@[simp] theorem abort_accWritten (s : State) (f : FaultRecord) : (s.abort f).accWritten = s.accWritten := rfl
@[simp] theorem abort_mem (s : State) (f : FaultRecord) : (s.abort f).mem = s.mem := rfl
@[simp] theorem abort_ip (s : State) (f : FaultRecord) : (s.abort f).ip = s.ip := rfl
@[simp] theorem abort_runState (s : State) (f : FaultRecord) : (s.abort f).runState = .aborted f := rfl

@[simp] theorem resetWith_image (p : Config.AccReset) (img : List Byte) : (State.resetWith p img).image = img := rfl
@[simp] theorem resetWith_accReset (p : Config.AccReset) (img : List Byte) : (State.resetWith p img).accReset = p := rfl
@[simp] theorem resetWith_acc (p : Config.AccReset) (img : List Byte) : (State.resetWith p img).acc = 0 := rfl
@[simp] theorem resetWith_accWritten (p : Config.AccReset) (img : List Byte) : (State.resetWith p img).accWritten = false := rfl
@[simp] theorem resetWith_mem (p : Config.AccReset) (img : List Byte) : (State.resetWith p img).mem = [] := rfl
@[simp] theorem resetWith_ip (p : Config.AccReset) (img : List Byte) : (State.resetWith p img).ip = 0 := rfl
@[simp] theorem resetWith_runState (p : Config.AccReset) (img : List Byte) : (State.resetWith p img).runState = .running := rfl

@[simp] theorem placeWord_image (s : State) (w : Word) : (placeWord s w).image = placeBytes s.image s.ip (bytesOfWord w) := rfl
@[simp] theorem placeWord_accReset (s : State) (w : Word) : (placeWord s w).accReset = s.accReset := rfl
@[simp] theorem placeWord_acc (s : State) (w : Word) : (placeWord s w).acc = s.acc := rfl
@[simp] theorem placeWord_accWritten (s : State) (w : Word) : (placeWord s w).accWritten = s.accWritten := rfl
@[simp] theorem placeWord_mem (s : State) (w : Word) : (placeWord s w).mem = s.mem := rfl
@[simp] theorem placeWord_ip (s : State) (w : Word) : (placeWord s w).ip = s.ip := rfl
@[simp] theorem placeWord_runState (s : State) (w : Word) : (placeWord s w).runState = .running := rfl

/-- `accReadable` reads only the parameter and the written flag. -/
theorem accReadable_eq (s : State) :
    s.accReadable = true ↔ s.accReset = .zero ∨ s.accWritten = true := by
  unfold State.accReadable; cases s.accReset <;> simp

theorem accReadable_eq_false (s : State) :
    s.accReadable = false ↔ s.accReset = .unwritten ∧ s.accWritten = false := by
  unfold State.accReadable; cases s.accReset <;> simp

@[simp] theorem accReadable_writeCell (s : State) (a : Nat) (v : Value) :
    (s.writeCell a v).accReadable = s.accReadable := rfl
@[simp] theorem accReadable_halt (s : State) (r : RunState) : (s.halt r).accReadable = s.accReadable := rfl
@[simp] theorem accReadable_advance (s : State) : s.advance.accReadable = s.accReadable := rfl
@[simp] theorem accReadable_abort (s : State) (f : FaultRecord) : (s.abort f).accReadable = s.accReadable := rfl

/-- Once the accumulator is written it may be read (10_state.md R19). -/
@[simp] theorem accReadable_setAcc (s : State) (v : Value) : (s.setAcc v).accReadable = true := by
  rw [accReadable_eq]; simp only [setAcc_accReset, setAcc_accWritten]; cases s.accReset <;> simp

/-- Writing the accumulator where it may already be read leaves the written flag as it is. -/
theorem setAcc_accWritten_of_readable {s : State} (h : s.accReadable = true) (v : Value) :
    (s.setAcc v).accWritten = s.accWritten := by
  rw [accReadable_eq] at h; simp only [setAcc_accWritten]; cases hp : s.accReset <;> simp_all

/-- The fault record is there exactly when the core is Aborted (10_state.md R24). -/
theorem faultRecord_eq_some (s : State) (f : FaultRecord) :
    s.faultRecord = some f ↔ s.runState = .aborted f := by
  unfold State.faultRecord; cases s.runState <;> simp

end Sys2Proof.Laws
end

