-- ==== Sys2Proof/Laws/Memory.lean ====
section
/-! SUPPORT. The laws of data memory: a read after a write, and that a write keeps the canonical form. -/

namespace Sys2Proof.Laws

open Sys2Proof.Machine

@[simp] theorem read_nil (a : Nat) : Memory.read [] a = 0 := rfl

theorem read_cons (b : Nat) (w : Value) (m : Memory) (a : Nat) :
    Memory.read ((b, w) :: m) a = if a = b then w else Memory.read m a := rfl

/-- The canonical form from a higher index on is canonical from a lower one. -/
theorem wfFrom_mono {lo lo' : Nat} (h : lo' ≤ lo) : ∀ {m : Memory}, m.wfFrom lo = true → m.wfFrom lo' = true
  | [], _ => rfl
  | (a, v) :: m, hm => by
    simp only [Memory.wfFrom, Bool.and_eq_true, decide_eq_true_eq] at hm ⊢
    exact ⟨⟨⟨by omega, hm.1.1.2⟩, hm.1.2⟩, hm.2⟩

/-- A cell below the first listed index reads as 0. -/
theorem read_below {a : Nat} : ∀ {lo : Nat} {m : Memory}, m.wfFrom lo = true → a < lo → m.read a = 0
  | _, [], _, _ => rfl
  | lo, (b, w) :: m, hm, h => by
    simp only [Memory.wfFrom, Bool.and_eq_true, decide_eq_true_eq] at hm
    rw [read_cons, if_neg (by omega)]
    exact read_below hm.2 (by omega)

/-- A write keeps the canonical form. -/
theorem write_wfFrom {a : Nat} (ha : a < 1024) (v : Value) :
    ∀ {lo : Nat} {m : Memory}, m.wfFrom lo = true → lo ≤ a → (m.write a v).wfFrom lo = true
  | lo, [], _, h => by
    unfold Memory.write
    split
    · rfl
    · rename_i hv; simp [Memory.wfFrom, h, ha, hv]
  | lo, (b, w) :: m, hm, h => by
    have hm' := hm
    simp only [Memory.wfFrom, Bool.and_eq_true, decide_eq_true_eq] at hm
    unfold Memory.write
    split
    · split
      · exact hm'
      · rename_i hab hv
        have : Memory.wfFrom (a + 1) ((b, w) :: m) = true := by
          simp [Memory.wfFrom, hm.1.1.2, hm.1.2, hm.2]; omega
        simp [Memory.wfFrom, h, ha, hv]; simpa [Memory.wfFrom] using this
    · split
      · split
        · exact wfFrom_mono (by omega) hm.2
        · rename_i hab hv; subst hab; simp [Memory.wfFrom, h, ha, hv, hm.2]
      · simp only [Memory.wfFrom, Bool.and_eq_true, decide_eq_true_eq]
        exact ⟨hm.1, write_wfFrom ha v hm.2 (by omega)⟩

/-- Every memory operation that writes keeps the canonical form (`MemWrite`, 00_scope.md R9). -/
theorem write_wf {m : Memory} {a : Nat} (hm : m.wf = true) (ha : a < 1024) (v : Value) : (m.write a v).wf = true :=
  write_wfFrom ha v hm (Nat.zero_le _)

/-- A read after a write: the written cell holds the value, every other cell is as before (20_memory.md R39, R42). -/
theorem read_writeFrom (a : Nat) (v : Value) (c : Nat) :
    ∀ {lo : Nat} {m : Memory}, m.wfFrom lo = true → (m.write a v).read c = if c = a then v else m.read c
  | _, [], _ => by
    unfold Memory.write
    split
    · rename_i hv; simp only [read_nil, hv, Memory.unlisted]; split <;> rfl
    · rw [read_cons]
  | lo, (b, w) :: m, hm => by
    have hm' := hm
    simp only [Memory.wfFrom, Bool.and_eq_true, decide_eq_true_eq] at hm
    have hz : c = a → a ≤ b → Memory.read m c = 0 := fun _ _ => read_below hm.2 (by omega)
    unfold Memory.write
    split
    · split
      · rename_i hab hv
        by_cases hc : c = a
        · rw [read_cons, if_neg (by omega), if_pos hc, hz hc (by omega), hv]; rfl
        · rw [if_neg hc]
      · rw [read_cons]
    · split
      · rename_i hab
        split
        · rename_i hv
          by_cases hc : c = a
          · rw [if_pos hc, hz hc (by omega), hv]; rfl
          · rw [if_neg hc, read_cons, if_neg (by omega)]
        · rw [read_cons, read_cons]
          by_cases hc : c = a
          · rw [if_pos hc]; simp [hc]
          · rw [if_neg hc, if_neg hc, if_neg (by omega)]
      · rw [read_cons, read_cons, read_writeFrom a v c hm.2]
        by_cases hc : c = b
        · rw [if_pos hc, if_pos hc, if_neg (by omega)]
        · rw [if_neg hc, if_neg hc]

/-- A read after a write, on a canonical memory. -/
theorem read_write {m : Memory} (hm : m.wf = true) (a : Nat) (v : Value) (c : Nat) :
    (m.write a v).read c = if c = a then v else m.read c := read_writeFrom a v c hm

/-- What a memory holds after a write was there before or is the value written. -/
theorem mem_write {a : Nat} {v : Value} {c : Nat × Value} :
    ∀ {m : Memory}, c ∈ m.write a v → c ∈ m ∨ c = (a, v)
  | [], h => by
    unfold Memory.write at h
    split at h
    · exact .inl h
    · simp at h; exact .inr h
  | (b, w) :: m, h => by
    unfold Memory.write at h
    split at h
    · split at h
      · exact .inl h
      · simp at h ⊢; tauto
    · split at h
      · split at h
        · exact .inl (List.mem_cons_of_mem _ h)
        · simp at h ⊢; tauto
      · rcases List.mem_cons.1 h with h | h
        · exact .inl (h ▸ List.mem_cons_self)
        · rcases mem_write h with h | h
          · exact .inl (List.mem_cons_of_mem _ h)
          · exact .inr h

/-- A cell reads as 0 or as the value of an entry. -/
theorem read_eq_zero_or_mem (a : Nat) : ∀ m : Memory, m.read a = 0 ∨ (a, m.read a) ∈ m
  | [] => .inl rfl
  | (b, w) :: m => by
    rw [read_cons]
    split
    · rename_i h; subst h; exact .inr List.mem_cons_self
    · rcases read_eq_zero_or_mem a m with h | h
      · exact .inl h
      · exact .inr (List.mem_cons_of_mem _ h)

/-- Every cell of a memory whose entries are small reads small (10_state.md R18). -/
theorem read_small {m : Memory} (h : ∀ c ∈ m, Value.small c.2) (a : Nat) : Value.small (m.read a) := by
  rcases read_eq_zero_or_mem a m with h0 | hm
  · rw [h0]; decide
  · exact h _ hm

end Sys2Proof.Laws
end

