-- ==== Sys2Proof/Laws/Ops.lean ====
section
/-! SUPPORT. What each shared operation and each meaning can do, said once: the checks, the end of an instruction,
the four instructions, and a step. -/

namespace Sys2Proof.Laws

open Sys2Proof.Machine

theorem addrCheck_eq_none {a : Int} : addrCheck a = none ↔ 0 ≤ a ∧ a ≤ 1023 := by
  unfold addrCheck; split <;> simp [Config.memCells] at * <;> omega

theorem addrCheck_eq_some {a : Int} {f : FaultRecord} :
    addrCheck a = some f ↔ ¬(0 ≤ a ∧ a ≤ 1023) ∧ f = ⟨.memOutOfRange, a⟩ := by
  simp only [addrCheck, Config.memCells]
  by_cases h : 0 ≤ a ∧ a ≤ 1023
  · rw [if_pos (by omega)]; simp [h]
  · rw [if_neg (by omega)]; simp only [Option.some.injEq, h, not_false_eq_true, true_and]; exact eq_comm

theorem accCheck_eq_none {tag : Nat} {s : State} : accCheck tag s = none ↔ s.accReadable = true := by
  unfold accCheck; split <;> simp_all

theorem accCheck_eq_some {tag : Nat} {s : State} {f : FaultRecord} :
    accCheck tag s = some f ↔ s.accReadable = false ∧ f = ⟨.accUnwritten, tag⟩ := by
  cases hr : s.accReadable <;> simp [accCheck, hr]; exact eq_comm

theorem finish_none (before effect : State) : finish none before effect = .next effect.advance := rfl

theorem finish_some (f : FaultRecord) (before effect : State) : finish (some f) before effect = .next (before.abort f) := rfl

/-- `WRITE_MEM` by the three cases of 41_load_store.md R84. -/
theorem execWriteMem_ok {a : Int} {s : State} (h : 0 ≤ a ∧ a ≤ 1023) (hr : s.accReadable = true) :
    execWriteMem a s = .next (s.writeCell a.toNat s.acc).advance := by
  simp [execWriteMem, absoluteAddr, addrCheck_eq_none.2 h, accCheck_eq_none.2 hr, finish_none]

theorem execWriteMem_outOfRange {a : Int} {s : State} (h : ¬(0 ≤ a ∧ a ≤ 1023)) :
    execWriteMem a s = .next (s.abort ⟨.memOutOfRange, a⟩) := by
  simp [execWriteMem, absoluteAddr, addrCheck_eq_some.2 ⟨h, rfl⟩, finish_some]

theorem execWriteMem_unwritten {a : Int} {s : State} (h : 0 ≤ a ∧ a ≤ 1023) (hr : s.accReadable = false) :
    execWriteMem a s = .next (s.abort ⟨.accUnwritten, 0⟩) := by
  simp [execWriteMem, absoluteAddr, addrCheck_eq_none.2 h, accCheck_eq_some.2 ⟨hr, rfl⟩, finish_some]

/-- `LOAD_CONST` has one case (41_load_store.md R83). -/
theorem execLoadConst_eq (v : Int) (s : State) :
    execLoadConst v s = .next (s.setAcc (immediateValue v)).advance := rfl

/-- `READ_MEM` by the three cases of 41_load_store.md R85. -/
theorem execReadMem_ok {s : State} (hr : s.accReadable = true) (h : 0 ≤ s.acc.toInt ∧ s.acc.toInt ≤ 1023) :
    execReadMem s = .next (s.setAcc (s.mem.read s.acc.toInt.toNat)).advance := by
  simp [execReadMem, accIndirectAddr, cellAt, addrCheck_eq_none.2 h, accCheck_eq_none.2 hr, finish_none]

theorem execReadMem_unwritten {s : State} (hr : s.accReadable = false) :
    execReadMem s = .next (s.abort ⟨.accUnwritten, 3⟩) := by
  simp [execReadMem, accCheck_eq_some.2 ⟨hr, rfl⟩, finish_some]

theorem execReadMem_outOfRange {s : State} (hr : s.accReadable = true) (h : ¬(0 ≤ s.acc.toInt ∧ s.acc.toInt ≤ 1023)) :
    execReadMem s = .next (s.abort ⟨.memOutOfRange, s.acc.toInt⟩) := by
  simp [execReadMem, accIndirectAddr, addrCheck_eq_some.2 ⟨h, rfl⟩, accCheck_eq_none.2 hr, finish_some]

/-- `UNARY_SGN` by the three cases of 42_alu.md R89. -/
theorem execUnarySgn_ok {s : State} (hr : s.accReadable = true) (h : 0 ≤ s.acc.toInt ∧ s.acc.toInt ≤ 1023) :
    execUnarySgn s =
      .next (s.setAcc (BitVec.ofInt 32 (sgn (s.mem.read s.acc.toInt.toNat).toInt))).advance := by
  simp [execUnarySgn, accIndirectAddr, cellAt, addrCheck_eq_none.2 h, accCheck_eq_none.2 hr, finish_none]

theorem execUnarySgn_unwritten {s : State} (hr : s.accReadable = false) :
    execUnarySgn s = .next (s.abort ⟨.accUnwritten, 2⟩) := by
  simp [execUnarySgn, accCheck_eq_some.2 ⟨hr, rfl⟩, finish_some]

theorem execUnarySgn_outOfRange {s : State} (hr : s.accReadable = true) (h : ¬(0 ≤ s.acc.toInt ∧ s.acc.toInt ≤ 1023)) :
    execUnarySgn s = .next (s.abort ⟨.memOutOfRange, s.acc.toInt⟩) := by
  simp [execUnarySgn, accIndirectAddr, addrCheck_eq_some.2 ⟨h, rfl⟩, accCheck_eq_none.2 hr, finish_some]

/-- The integer of a 32-bit value made from a small integer is that integer (00_scope.md R8). -/
theorem toInt_ofInt_small {v : Int} (h : -2147483648 ≤ v ∧ v ≤ 2147483647) : (BitVec.ofInt 32 v).toInt = v := by
  rw [BitVec.toInt_ofInt, Int.bmod_eq_of_le] <;> omega

theorem sgn_mem (v : Int) : sgn v = -1 ∨ sgn v = 0 ∨ sgn v = 1 := by
  unfold sgn; split
  · exact .inr (.inr rfl)
  · split
    · exact .inl rfl
    · exact .inr (.inl rfl)

/-- Everything `exec` can do: the effect of the instruction with `ip` advanced, or an abort that changes nothing else,
with its fault record (60_exceptions.md R93, R96). -/
theorem exec_cases (i : Instr) (s : State) :
    (∃ v, i = .loadConst v ∧ exec i s = .next (s.setAcc (BitVec.ofInt 32 v)).advance) ∨
    (∃ a : Int, i = .writeMem a ∧ (0 ≤ a ∧ a ≤ 1023) ∧ s.accReadable = true ∧
      exec i s = .next (s.writeCell a.toNat s.acc).advance) ∨
    (i = .readMem ∧ (0 ≤ s.acc.toInt ∧ s.acc.toInt ≤ 1023) ∧ s.accReadable = true ∧
      exec i s = .next (s.setAcc (s.mem.read s.acc.toInt.toNat)).advance) ∨
    (i = .unarySgn ∧ (0 ≤ s.acc.toInt ∧ s.acc.toInt ≤ 1023) ∧ s.accReadable = true ∧
      exec i s = .next (s.setAcc (BitVec.ofInt 32 (sgn (s.mem.read s.acc.toInt.toNat).toInt))).advance) ∨
    (∃ a : Int, i = .writeMem a ∧ ¬(0 ≤ a ∧ a ≤ 1023) ∧ exec i s = .next (s.abort ⟨.memOutOfRange, a⟩)) ∨
    ((i = .readMem ∨ i = .unarySgn) ∧ s.accReadable = true ∧ ¬(0 ≤ s.acc.toInt ∧ s.acc.toInt ≤ 1023) ∧
      exec i s = .next (s.abort ⟨.memOutOfRange, s.acc.toInt⟩)) ∨
    ((∀ v, i ≠ .loadConst v) ∧ s.accReadable = false ∧ exec i s = .next (s.abort ⟨.accUnwritten, opTag i⟩)) := by
  cases i with
  | loadConst v => exact .inl ⟨v, rfl, rfl⟩
  | writeMem a =>
    by_cases h : 0 ≤ a ∧ a ≤ 1023
    · cases hr : s.accReadable
      · simp [exec, execWriteMem_unwritten h hr, opTag]
      · simp [exec, execWriteMem_ok h hr, h]
    · simp only [exec, execWriteMem_outOfRange h]; simp; simp only [Classical.not_and_iff_not_or_not, not_le] at h; omega
  | readMem =>
    cases hr : s.accReadable
    · simp [exec, execReadMem_unwritten hr, opTag]
    · by_cases h : 0 ≤ s.acc.toInt ∧ s.acc.toInt ≤ 1023
      · simp [exec, execReadMem_ok hr h, h]
      · simp only [exec, execReadMem_outOfRange hr h]; simp; simp only [Classical.not_and_iff_not_or_not, not_le] at h; omega
  | unarySgn =>
    cases hr : s.accReadable
    · simp [exec, execUnarySgn_unwritten hr, opTag]
    · by_cases h : 0 ≤ s.acc.toInt ∧ s.acc.toInt ≤ 1023
      · simp [exec, execUnarySgn_ok hr h, h]
      · simp only [exec, execUnarySgn_outOfRange hr h]; simp; simp only [Classical.not_and_iff_not_or_not, not_le] at h; omega

end Sys2Proof.Laws
end

