-- ==== Sys2Proof/Laws/PerInstr.lean ====
section
/-! SUPPORT. A fact of every instruction as syntax, one lemma per constructor: the tag field of its word is its row's
tag, and no bit outside the tag and the operand is set (30_encoding.md R59, R70). -/

namespace Sys2Proof.Laws.CanonicalTag

/-- The word of a well-formed instruction carries its tag, which is a legal one. -/
def Statement (i : Instr) : Prop := i.wellFormed = true → bits (encode i) 2 0 = opTag i ∧ opTag i < 4

/-- Every instruction's tag is one of the four legal ones (30_encoding.md R55). -/
theorem opTag_lt (i : Instr) : opTag i < 4 := by cases i <;> simp [opTag]

/-- The tag field of an encoded instruction, whatever its operand. -/
theorem tag_of_encode {i : Instr} (h : i.wellFormed = true) : bits (encode i) 2 0 = opTag i ∧ opTag i < 4 := by
  have := opTag_lt i
  rw [bits_eq, encode_toNat h]; omega

theorem writeMem (a : Int) : Statement (.writeMem a) := tag_of_encode
theorem loadConst (v : Int) : Statement (.loadConst v) := tag_of_encode
theorem unarySgn : Statement .unarySgn := tag_of_encode
theorem readMem : Statement .readMem := tag_of_encode

end Sys2Proof.Laws.CanonicalTag
end

