-- ==== Sys2Proof/Laws/Step.lean ====
section
/-! SUPPORT. Everything a step can do (40_sequencer.md R72), said once. -/

namespace Sys2Proof.Laws

open Sys2Proof.Machine

theorem step_running {s : State} (h : s.runState = .running) : step s = runningStep s := by
  rw [step, takeStep, h]

theorem step_halt {s : State} (h : s.runState = .running) (hr : s.remaining = 0) :
    step s = .next (s.halt .haltedNormally) := by
  rw [step_running h, runningStep, if_pos hr]

theorem step_truncated {s : State} (h : s.runState = .running) (hr : s.remaining ≠ 0) (hr' : s.remaining < 4) :
    step s = .next (s.halt .haltedTruncated) := by
  rw [step_running h, runningStep, if_neg hr, if_pos (by exact hr')]

theorem step_dispatch {s : State} (h : s.runState = .running) (hr : 4 ≤ s.remaining) :
    step s = dispatchWord (decodeWord s.fetchWord) s := by
  rw [step_running h, runningStep, if_neg (by omega), if_neg (by show ¬ s.remaining < 4; omega)]

/-- A core that has left Running takes no step (40_sequencer.md R79). -/
theorem step_notRunning {s t : State} (h : s.runState ≠ .running) : step s ≠ .next t := by
  unfold step takeStep; split <;> simp_all

/-- Everything a step can do, for a core that takes one. -/
theorem step_cases {s t : State} (h : step s = .next t) :
    s.runState = .running ∧
    ((s.remaining = 0 ∧ t = s.halt .haltedNormally) ∨
     (s.remaining ≠ 0 ∧ s.remaining < 4 ∧ t = s.halt .haltedTruncated) ∨
     (4 ≤ s.remaining ∧ ∃ i, decodeWord s.fetchWord = .instr i ∧ exec i s = .next t) ∨
     (4 ≤ s.remaining ∧ (4 ≤ bits s.fetchWord 2 0 ∧ bits s.fetchWord 2 0 ≤ 7) ∧
       t = s.abort ⟨.unknownOpcode, bits s.fetchWord 2 0⟩)) := by
  have hrun : s.runState = .running := by
    by_contra hn; exact step_notRunning hn h
  refine ⟨hrun, ?_⟩
  by_cases h0 : s.remaining = 0
  · rw [step_halt hrun h0] at h; injection h with h; exact .inl ⟨h0, h.symm⟩
  by_cases h4 : s.remaining < 4
  · rw [step_truncated hrun h0 h4] at h; injection h with h; exact .inr (.inl ⟨h0, h4, h.symm⟩)
  rw [step_dispatch hrun (by omega)] at h
  rcases decodeWord_cases s.fetchWord with ⟨_, hd⟩ | ⟨_, hd⟩ | ⟨_, hd⟩ | ⟨_, hd⟩ | ⟨ht, hd⟩
  · rw [hd] at h; exact .inr (.inr (.inl ⟨by omega, _, hd, h⟩))
  · rw [hd] at h; exact .inr (.inr (.inl ⟨by omega, _, hd, h⟩))
  · rw [hd] at h; exact .inr (.inr (.inl ⟨by omega, _, hd, h⟩))
  · rw [hd] at h; exact .inr (.inr (.inl ⟨by omega, _, hd, h⟩))
  · rw [hd] at h; simp only [dispatchWord, raise] at h; injection h with h
    exact .inr (.inr (.inr ⟨by omega, ht, h.symm⟩))

/-- The fetch at an offset with four bytes after it reads those bytes (20_memory.md R35). -/
theorem fetchWord_of_drop {s : State} {b0 b1 b2 b3 : Byte} {rest : List Byte}
    (h : s.image.drop s.ip = b0 :: b1 :: b2 :: b3 :: rest) : s.fetchWord = wordOfBytes b0 b1 b2 b3 := by
  have hg : ∀ k, s.image.getD (s.ip + k) 0 = (b0 :: b1 :: b2 :: b3 :: rest).getD k 0 := fun k => by
    rw [← h]; simp [List.getD_eq_getElem?_getD, List.getElem?_drop]
  simp only [State.fetchWord, State.imgByte]
  rw [show s.ip = s.ip + 0 from rfl, hg 0, show s.ip + 0 + 1 = s.ip + 1 from rfl, hg 1,
    show s.ip + 0 + 2 = s.ip + 2 from rfl, hg 2, show s.ip + 0 + 3 = s.ip + 3 from rfl, hg 3]
  rfl

theorem remaining_of_drop {s : State} {b0 b1 b2 b3 : Byte} {rest : List Byte}
    (h : s.image.drop s.ip = b0 :: b1 :: b2 :: b3 :: rest) : 4 ≤ s.remaining := by
  have := congrArg List.length h
  simp only [List.length_drop, List.length_cons] at this
  simp only [State.remaining]; omega

end Sys2Proof.Laws
end

