-- ==== Sys2Proof/Tests/Slice0.lean ====
section
/-! SUPPORT. The model's own tests: ill-formed terms, words of 95_test_vectors.md, one step of each instruction, the
host's and the toolchain's vectors, and a witness for the hypotheses of each statement. Expected results are those of
95_test_vectors.md (V-...), 41_load_store.md and 42_alu.md. -/

namespace Sys2Proof.Tests

open Sys2Proof.Machine

/-- A Running core with the accumulator written, `ACC_RESET = Unwritten`. -/
def st (acc : Int) (mem : Memory) (img : List Byte) : State :=
  { State.resetWith .unwritten img with acc := BitVec.ofInt 32 acc, accWritten := true, mem := mem }

/-- The state after one step, where there is one. -/
def after (s : State) : Option State :=
  match step s with
  | .next t => some t
  | .fault _ => none
  | .refused _ => none

/-- What `after` answers is what the step answers. -/
theorem step_of_after {s t : State} (h : after s = some t) : step s = .next t := by
  unfold after at h; split at h <;> simp_all

/-! ### Well-formedness: an ill-formed term for each check (30_encoding.md R51, R60) -/

theorem test_wf_loadConst : (Instr.loadConst (-128)).wellFormed = true ∧ (Instr.loadConst 127).wellFormed = true ∧
    (Instr.loadConst (-129)).wellFormed = false ∧ (Instr.loadConst 128).wellFormed = false := by decide
theorem test_wf_writeMem : (Instr.writeMem 0).wellFormed = true ∧ (Instr.writeMem 16777215).wellFormed = true ∧
    (Instr.writeMem (-1)).wellFormed = false ∧ (Instr.writeMem 16777216).wellFormed = false := by decide

/-! ### Decoding: each constructor's word, bit by bit from 30_encoding.md R51 -/

/-- V-W1: `rrrrr aaaaaaaaaaaaaaaaaaaaaaaa 000` with address 10. -/
theorem test_decode_writeMem : decodeWord 0b00000_000000000000000000001010_000#32 = .instr (.writeMem 10) := by decide
/-- The example of R83: `imm8 = 0xF9` is -7. -/
theorem test_decode_loadConst : decodeWord 0b000000000000000000000_11111001_001#32 = .instr (.loadConst (-7)) := by decide
theorem test_decode_unarySgn : decodeWord 0b00000000000000000000000000000_010#32 = .instr .unarySgn := by decide
theorem test_decode_readMem : decodeWord 0b00000000000000000000000000000_011#32 = .instr .readMem := by decide
/-- V-D4, V-D5, V-D7, V-D8: ignored bits set. -/
theorem test_decode_ignored : decodeWord 0xFFFFFFF9 = .instr (.loadConst (-1)) ∧
    decodeWord 0x08000050 = .instr (.writeMem 10) ∧ decodeWord 0xFFFFFFFB = .instr .readMem ∧
    decodeWord 0xFFFFFFFA = .instr .unarySgn := by decide
/-- V-D6 and E6: the ends of the operand fields. -/
theorem test_decode_ends : decodeWord 0x07FFFFF8 = .instr (.writeMem 16777215) ∧
    decodeWord 0x00000401 = .instr (.loadConst (-128)) ∧ decodeWord 0x000003F9 = .instr (.loadConst 127) := by decide
/-- V-D9 to V-D13: tags 4 to 7. -/
theorem test_decode_illegal : decodeWord 4 = .illegal 4 ∧ decodeWord 5 = .illegal 5 ∧ decodeWord 6 = .illegal 6 ∧
    decodeWord 7 = .illegal 7 ∧ decodeWord 0xFFFFFFFC = .illegal 4 := by decide
/-- Section 2.1: byte order. -/
theorem test_byte_order : wordOfBytes 0xC9 0x07 0x00 0x00 = 0x000007C9 ∧ wordOfBytes 0x00 0x00 0x07 0xC9 = 0xC9070000 ∧
    decodeWord 0xC9070000 = .instr (.writeMem 2154496) := by decide
/-- E1, E3 and E6: the encoder's words and bytes. -/
theorem test_encode : encode (.loadConst (-7)) = 0x000007C9 ∧ encode (.writeMem 2000) = 0x00003E80 ∧
    encode (.loadConst (-128)) = 0x00000401 ∧ encodeBytes (.writeMem 16777215) = [0xF8, 0xFF, 0xFF, 0x07] ∧
    encode .readMem = 3 ∧ encode .unarySgn = 2 := by decide
/-- E6: the codec's raw pair for LOAD_CONST -128. -/
theorem test_codec : codecDecode 0x00000401 = (1, 128) ∧ codecDecode 0x07FFFFF8 = (0, 16777215) := by decide
/-- The host's numbering of the opcode table, and an illegal tag. -/
theorem test_table_word : decodeTableWord 32 0x7C9 = some (.loadConst (-7)) ∧ decodeTableWord 32 4 = none := by decide

/-! ### One step of each instruction -/

/-- V-L6: the non-canonical word loads -1, from an unwritten accumulator. -/
theorem test_step_loadConst : (after (State.resetWith .unwritten [0xF9, 0xFF, 0xFF, 0xFF])).map
    (fun t => (t.acc.toInt, t.accWritten, t.ip, t.runState)) = some (-1, true, 4, .running) := by decide
/-- V-W3: the last cell; the accumulator stays. -/
theorem test_step_writeMem : (after (st 9 [(10, 5)] [0xF8, 0x1F, 0x00, 0x00])).map
    (fun t => (t.mem, t.acc.toInt, t.ip)) = some ([(10, 5), (1023, 9)], 9, 4) := by decide
/-- V-W7: the address is checked before the accumulator (D17). -/
theorem test_step_writeMem_order : (after (State.resetWith .unwritten [0x00, 0x20, 0x00, 0x00])).map
    (fun t => (t.runState, t.ip, t.mem)) = some (.aborted ⟨.memOutOfRange, 1024⟩, 0, []) := by decide
/-- V-R1: the accumulator is the address and then the destination. -/
theorem test_step_readMem : (after (st 10 [(10, BitVec.ofInt 32 (-7))] [0x03, 0x00, 0x00, 0x00])).map
    (fun t => (t.acc.toInt, t.ip)) = some (-7, 4) := by decide
/-- V-R4: a negative address, signed in the record. -/
theorem test_step_readMem_negative : (after (st (-1) [] [0x03, 0x00, 0x00, 0x00])).map
    (fun t => (t.runState, t.acc.toInt)) = some (.aborted ⟨.memOutOfRange, -1⟩, -1) := by decide
/-- V-S4, and the cell is not written. -/
theorem test_step_unarySgn : (after (st 3 [(3, BitVec.ofInt 32 (-128))] [0x02, 0x00, 0x00, 0x00])).map
    (fun t => (t.acc.toInt, (t.mem.read 3).toInt)) = some (-1, -128) := by decide
/-- V-S8. -/
theorem test_step_unarySgn_unwritten : (after (State.resetWith .unwritten [0x02, 0x00, 0x00, 0x00])).map
    (fun t => t.runState) = some (.aborted ⟨.accUnwritten, 2⟩) := by decide

/-! ### The sequencer (section 2.6), the parameter, and the placing of a word -/

/-- V-Q1, V-Q2, V-Q9 (its last step): the two halts. -/
theorem test_halts : (after (State.resetWith .unwritten [])).map (·.runState) = some .haltedNormally ∧
    (after (State.resetWith .unwritten [1, 2, 3])).map (·.runState) = some .haltedTruncated ∧
    (after { State.resetWith .unwritten [1, 0, 0, 0, 0xFF] with ip := 4 }).map (·.runState) =
      some .haltedTruncated := by decide
/-- V-Q8: an illegal tag aborts at `ip = 0`. -/
theorem test_illegal_tag : (after (State.resetWith .unwritten [4, 0, 0, 0, 1, 0, 0, 0])).map
    (fun t => (t.runState, t.ip)) = some (.aborted ⟨.unknownOpcode, 4⟩, 0) := by decide
/-- V-Q4 and V-Q5: the zero word under the two values of `ACC_RESET`. -/
theorem test_acc_reset : (after (State.resetWith .unwritten [0, 0, 0, 0])).map (·.runState) =
      some (.aborted ⟨.accUnwritten, 0⟩) ∧
    (after (State.resetWith .zero [0, 0, 0, 0])).map (fun t => (t.runState, t.ip, t.accWritten)) =
      some (.running, 4, false) := by decide
/-- R79: no step from a final state. -/
theorem test_final : after { st 0 [] [1, 0, 0, 0] with runState := .haltedNormally } = none := by decide
/-- A word placed at reset is the next to run. -/
theorem test_placed : (after (State.reset.withFetchWord 32 0x7C9)).map (fun t => (t.acc.toInt, t.ip)) = some (-7, 4) := by
  decide

/-! ### The dump (section 2.7) and the assembler (section 2.8) -/

/-- V-X1, V-X4 to V-X8: the range strings. -/
theorem test_ranges : validRange ['1', '0', ':', '1', '1'] = some (10, 11) ∧ validRange ['1', '1', ':', '1', '0'] = none ∧
    validRange ['0', ':', '1', '0', '2', '4'] = none ∧ validRange ['-', '1', ':', '3'] = none ∧
    validRange ['1', '0', ' ', ':', '1', '1'] = none ∧ validRange ['1', '0'] = none := by decide
/-- V-X1: the snapshot after program E1's end state. -/
theorem test_dump : State.dump { st (-1) [(10, BitVec.ofInt 32 (-7)), (11, BitVec.ofInt 32 (-1))] [] with
    runState := .haltedNormally } ['1', '0', ':', '1', '1'] = .snapshot [⟨10, -7⟩, ⟨11, -1⟩] := by decide

/-- The image an assembly writes, where it succeeds. -/
def imageOf (lines : List (List Char)) : Option (List Byte) :=
  match assemble lines with
  | .ok out => some out.image
  | .error _ => none

/-- The line an assembly reports, where it fails. -/
def badLineOf (lines : List (List Char)) : Option (Nat × List Char) :=
  match assemble lines with
  | .ok _ => none
  | .error e => some (e.lineNumber, e.text)

/-- V-A1, V-A2: `load_const 3   # three`, after a comment line. -/
theorem test_assemble : imageOf [[' ', '#', 'x'], ['l', 'o', 'a', 'd', '_', 'c', 'o', 'n', 's', 't', ' ', '3', ' ', '#', 't']] =
    some [0x19, 0, 0, 0] := by decide
/-- V-A14: `READ_MEM#x`. -/
theorem test_assemble_comment : imageOf [['R', 'E', 'A', 'D', '_', 'M', 'E', 'M', '#', 'x']] = some [3, 0, 0, 0] := by decide
/-- V-A15: the bad line is line 2. -/
theorem test_assemble_bad : badLineOf [[], ['F', 'O', 'O'], ['B', 'A', 'R']] = some (2, ['F', 'O', 'O']) := by decide
/-- V-A3, V-A4, V-A12 and R64: literals. -/
theorem test_literals : literalValue ['+', '5'] = some 5 ∧ literalValue ['-', '0'] = some 0 ∧
    literalValue ['0', '0', '7'] = some 7 ∧ literalValue ['0', 'x', '1', '0'] = none ∧ literalValue ['-'] = none ∧
    literalValue ['1', '_', '0'] = none := by decide

/-! ### Witnesses: for each statement with hypotheses, a state and operands that meet them -/

theorem witness_SignExtensionAndItsInverse : ((127 : Nat) ≤ 255 ∧ (127 : Nat) ≤ 127) ∧ ((128 : Nat) ≤ 255 ∧ (128 : Nat) ≤ 128) ∧
    ((-128 : Int) ≤ -128 ∧ (-128 : Int) ≤ 127) := by decide

theorem witness_OpcodeMapIsTotalAndReadsTheTag : bits 0xFFFFFFF8 2 0 = 0 ∧ bits 1 2 0 = 1 ∧ bits 2 2 0 = 2 ∧ bits 3 2 0 = 3 ∧
    4 ≤ bits 4 2 0 ∧ 4 ≤ bits 7 2 0 := by decide

/-- Two images that differ in ignored bits of the fetched word and in the word after it. -/
theorem witness_IgnoredBitsChangeNothing :
    ∀ p ∈ [(([0xC9, 0x07, 0, 0, 5] : List Byte), ([0xC9, 0xFF, 0xFF, 0xFF, 6] : List Byte)),
           ([0x50, 0, 0, 0, 5], [0x50, 0, 0, 0xF8, 6]), ([3, 0, 0, 0, 5], [0xFB, 0xFF, 0xFF, 0xFF, 6]),
           ([4, 0, 0, 0, 5], [0xFC, 0xFF, 0xFF, 0xFF, 6])],
      (st 1 [] p.1).runState = .running ∧ p.2.length = (st 1 [] p.1).image.length ∧ 4 ≤ (st 1 [] p.1).remaining ∧
      bits { st 1 [] p.1 with image := p.2 }.fetchWord 2 0 = bits (st 1 [] p.1).fetchWord 2 0 ∧
      (bits (st 1 [] p.1).fetchWord 2 0 = 1 →
        bits { st 1 [] p.1 with image := p.2 }.fetchWord 10 3 = bits (st 1 [] p.1).fetchWord 10 3) ∧
      (bits (st 1 [] p.1).fetchWord 2 0 = 0 →
        bits { st 1 [] p.1 with image := p.2 }.fetchWord 26 3 = bits (st 1 [] p.1).fetchWord 26 3) := by decide

theorem witness_EncodedInstructionsDecodeToThemselves :
    ∀ i ∈ [Instr.loadConst (-128), .loadConst 127, .writeMem 0, .writeMem 16777215, .readMem, .unarySgn],
      i.wellFormed = true := by decide

theorem witness_DecodedWordsEncodeToTheirCanonicalWord : decodeWord 0xFFFFFFF9 = .instr (.loadConst (-1)) := by decide

theorem witness_PackingOfEachInstruction : ((-128 : Int) ≤ -7 ∧ (-7 : Int) ≤ 127) ∧ ((0 : Int) ≤ 0xFFFFFF ∧ (0xFFFFFF : Int) ≤ 0xFFFFFF) := by
  decide

theorem witness_EncoderChecksTheOperandRange : ((-128 : Int) ≤ 127 ∧ (127 : Int) ≤ 127) ∧ ((-129 : Int) < -128 ∨ 127 < (-129 : Int)) ∧
    ((0 : Int) ≤ 0xFFFFFF ∧ (0xFFFFFF : Int) ≤ 0xFFFFFF) ∧ ((-1 : Int) < 0 ∨ 0xFFFFFF < (-1 : Int)) := by decide

theorem witness_ImageWordsAreLittleEndian : { st 0 [] [9, 0, 0, 0, 0xC9, 0x07, 0, 0, 1] with ip := 4 }.image =
    [9, 0, 0, 0] ++ [0xC9, 0x07, 0, 0] ++ [1] ∧ { st 0 [] [] with ip := 4 }.ip = [(9 : Byte), 0, 0, 0].length := by decide

theorem witness_LoadConstLoadsTheConstant : bits 0xFFFFFFF9 2 0 = 1 ∧ ((-128 : Int) ≤ -128 ∧ (-128 : Int) ≤ 127) ∧
    ((-128 : Int) ≤ 127 ∧ (127 : Int) ≤ 127) ∧ (State.resetWith .unwritten []).accReset = .unwritten ∧
    (State.resetWith .zero []).accReset = .zero := by decide

/-- Clause by clause: the last cell, the first address out of range, and an unwritten accumulator. -/
theorem witness_WriteMemStoresTheAccumulator : bits 0xFFFFFFF8 2 0 = 0 ∧
    ((0 : Int) ≤ 1023 ∧ (1023 : Int) ≤ 0xFFFFFF ∧ (st 9 [(1023, 1)] []).mem.wf = true ∧ (1023 : Int) ≤ 1023 ∧
      ((st 9 [(1023, 1)] []).accReset = .zero ∨ (st 9 [(1023, 1)] []).accWritten = true)) ∧
    ((0 : Int) ≤ 1024 ∧ (1024 : Int) ≤ 0xFFFFFF ∧ (1023 : Int) < 1024) ∧
    ((State.resetWith .unwritten []).mem.wf = true ∧ (State.resetWith .unwritten []).accReset = .unwritten ∧
      (State.resetWith .unwritten []).accWritten = false) := by decide

/-- Clause by clause: the last cell, both sides out of range, and an unwritten accumulator. -/
theorem witness_ReadMemLoadsTheAddressedCell : bits 0xFFFFFFFB 2 0 = 3 ∧
    (((st 1023 [] []).accReset = .zero ∨ (st 1023 [] []).accWritten = true) ∧ 0 ≤ (st 1023 [] []).acc.toInt ∧
      (st 1023 [] []).acc.toInt ≤ 1023) ∧
    ((st (-1) [] []).acc.toInt < 0 ∧ 1023 < (st 1024 [] []).acc.toInt) ∧
    ((State.resetWith .unwritten []).accReset = .unwritten ∧ (State.resetWith .unwritten []).accWritten = false) := by decide

/-- As for READ_MEM, with a positive, a negative and a zero cell. -/
theorem witness_UnarySgnLoadsTheSignOfTheAddressedCell : bits 0xFFFFFFFA 2 0 = 2 ∧
    (((st 1023 [(1023, 1)] []).accReset = .zero ∨ (st 1023 [(1023, 1)] []).accWritten = true) ∧
      0 ≤ (st 1023 [(1023, 1)] []).acc.toInt ∧ (st 1023 [(1023, 1)] []).acc.toInt ≤ 1023) ∧
    0 < ((st 1023 [(1023, 1)] []).mem.read 1023).toInt ∧ ((st 0 [(0, BitVec.ofInt 32 (-1))] []).mem.read 0).toInt < 0 ∧
    ((st 0 [] []).mem.read 0).toInt = 0 ∧
    ((st (-1) [] []).acc.toInt < 0 ∧ 1023 < (st 1024 [] []).acc.toInt) ∧
    ((State.resetWith .unwritten []).accReset = .unwritten ∧ (State.resetWith .unwritten []).accWritten = false) := by decide

theorem witness_SignFunction : (127 : Int) > 0 ∧ (-128 : Int) < 0 ∧ (0 : Int) = 0 := by decide

theorem witness_StepRunsTheDecodedInstruction : (st 1 [] [9, 0, 0, 0, 0x50, 0, 0, 0, 7]).runState = .running ∧
    decode ({ st 1 [] [9, 0, 0, 0, 0x50, 0, 0, 0, 7] with ip := 4 }.image.drop 4) = .ok (.writeMem 10, [7]) := ⟨rfl, rfl⟩

theorem witness_IllegalTagsAbort : ∀ img ∈ [([4, 0, 0, 0] : List Byte), [0xFF, 0xFF, 0xFF, 0xFF]],
    (st 1 [] img).runState = .running ∧ 4 ≤ (st 1 [] img).remaining ∧ 4 ≤ bits (st 1 [] img).fetchWord 2 0 := by decide

theorem witness_EndOfImageHaltsNormally : { st 1 [] [9, 0, 0, 0] with ip := 4 }.runState = .running ∧
    (({ st 1 [] [9, 0, 0, 0] with ip := 4 }.image.length : Nat) : Int) - { st 1 [] [9, 0, 0, 0] with ip := 4 }.ip = 0 := by decide

/-- One and three bytes remaining. -/
theorem witness_TruncatedImageHalts : ∀ img ∈ [([5] : List Byte), [5, 6, 7]],
    (st 1 [] img).runState = .running ∧ 0 < ((st 1 [] img).image.length : Int) - (st 1 [] img).ip ∧
    ((st 1 [] img).image.length : Int) - (st 1 [] img).ip < 4 ∧ validRange ['7', ':', '7'] ≠ none := by decide

theorem witness_StepsExistExactlyWhileRunning : (State.resetWith .unwritten []).runState = .running ∧
    ((State.resetWith .unwritten []).halt .haltedNormally).runState ≠ .running := by decide

/-- A step of each kind: one that completes, one that halts, one that aborts. -/
theorem witness_CompletedStepsAdvanceByFour : step (st 1 [] [9, 0, 0, 0]) = .next { st 1 [] [9, 0, 0, 0] with ip := 4 } ∧
    step (st 1 [] []) = .next { st 1 [] [] with runState := .haltedNormally } := ⟨step_of_after (by decide), step_of_after (by decide)⟩

theorem witness_FaultsArePrecise : step (st 1 [] [4, 0, 0, 0]) =
    .next { st 1 [] [4, 0, 0, 0] with runState := .aborted ⟨.unknownOpcode, 4⟩ } := step_of_after (by decide)

theorem witness_OnlyWriteMemChangesACell : (st 1 [] [0x50, 0, 0, 0]).mem.wf = true ∧
    step (st 1 [] [0x50, 0, 0, 0]) = .next { st 1 [(10, 1)] [0x50, 0, 0, 0] with ip := 4 } ∧
    { st 1 [(10, 1)] [0x50, 0, 0, 0] with ip := 4 }.mem.read 10 ≠ (st 1 [] [0x50, 0, 0, 0]).mem.read 10 :=
  ⟨by decide, step_of_after (by decide), by decide⟩

theorem witness_TransitionsLeaveRunningOnly : (st 1 [] [9, 0, 0, 0]).IpInImage ∧
    step (st 1 [] [9, 0, 0, 0]) = .next { st 1 [] [9, 0, 0, 0] with ip := 4 } := ⟨by decide, step_of_after (by decide)⟩

/-- A state for each clause; the step exists because the core is Running. -/
theorem witness_FirstFailingCheckIsReported :
    (∀ img ∈ [([] : List Byte), [4], [4, 0, 0, 0], [0, 0x20, 0, 0], [0xF8, 0x1F, 0, 0], [2, 0, 0, 0], [3, 0, 0, 0], [9, 0, 0, 0]],
      (st 1 [] img).runState = .running) ∧
    (st 1 [] [4]).remaining < 4 ∧
    (4 ≤ (st 1 [] [4, 0, 0, 0]).remaining ∧ 4 ≤ bits (st 1 [] [4, 0, 0, 0]).fetchWord 2 0) ∧
    (4 ≤ (st 1 [] [0, 0x20, 0, 0]).remaining ∧ bits (st 1 [] [0, 0x20, 0, 0]).fetchWord 2 0 = 0 ∧
      bits (st 1 [] [0, 0x20, 0, 0]).fetchWord 26 3 = 1024) ∧
    bits (st 1 [] [0xF8, 0x1F, 0, 0]).fetchWord 26 3 = 1023 ∧
    bits (st 1 [] [2, 0, 0, 0]).fetchWord 2 0 = 2 ∧ bits (st 1 [] [3, 0, 0, 0]).fetchWord 2 0 = 3 ∧
    bits (st 1 [] [9, 0, 0, 0]).fetchWord 2 0 = 1 ∧
    step (st 1 [] [9, 0, 0, 0]) = .next { st 1 [] [9, 0, 0, 0] with ip := 4 } := by
  refine ⟨by decide, by decide, by decide, by decide, by decide, by decide, by decide, by decide, step_of_after (by decide)⟩

theorem witness_FaultRecordIsNeverOverwritten :
    (runSteps 1 (st 1 [] [4, 0, 0, 0])).runState = .aborted ⟨.unknownOpcode, 4⟩ ∧ (1 : Nat) ≤ 3 := by decide

/-- A store that removes an entry and one that adds one, from canonical memories. -/
theorem witness_MemoryStaysCanonical : (st 0 [(10, 1)] [0x50, 0, 0, 0]).mem.wf = true ∧
    step (st 0 [(10, 1)] [0x50, 0, 0, 0]) = .next { st 0 [] [0x50, 0, 0, 0] with ip := 4 } := ⟨by decide, step_of_after (by decide)⟩

theorem witness_ValuesStayInSignedByteRange : (st (-128) [(10, 127)] [0x50, 0, 0, 0]).ValuesSmall ∧
    step (st (-128) [(10, 127)] [0x50, 0, 0, 0]) =
      .next { st (-128) [(10, BitVec.ofInt 32 (-128))] [0x50, 0, 0, 0] with ip := 4 } := ⟨by decide, step_of_after (by decide)⟩

theorem witness_IpStaysAlignedInTheImage : (st 1 [] [9, 0, 0, 0]).IpInImage ∧
    step (st 1 [] [9, 0, 0, 0]) = .next { st 1 [] [9, 0, 0, 0] with ip := 4 } := ⟨by decide, step_of_after (by decide)⟩

/-- A step that aborts, with the greatest address the field encodes. -/
theorem witness_FaultRecordStaysLegal : (st 1 [] [0xF8, 0xFF, 0xFF, 0x07]).ValuesSmall ∧
    step (st 1 [] [0xF8, 0xFF, 0xFF, 0x07]) =
      .next { st 1 [] [0xF8, 0xFF, 0xFF, 0x07] with runState := .aborted ⟨.memOutOfRange, 16777215⟩ } := ⟨by decide, step_of_after (by decide)⟩

/-- A step that writes the accumulator, one that reads it unwritten, and one under `ACC_RESET = Zero`. -/
theorem witness_WrittenFlagRules :
    ((st 1 [] [9, 0, 0, 0]).accReset = .unwritten ∧ 4 ≤ (st 1 [] [9, 0, 0, 0]).remaining ∧
      bits (st 1 [] [9, 0, 0, 0]).fetchWord 2 0 = 1 ∧ (st 1 [] [9, 0, 0, 0]).accWritten = true ∧
      step (st 1 [] [9, 0, 0, 0]) = .next { st 1 [] [9, 0, 0, 0] with ip := 4 }) ∧
    ((State.resetWith .unwritten [0xF8, 0x1F, 0, 0]).accWritten = false ∧
      bits (State.resetWith .unwritten [0xF8, 0x1F, 0, 0]).fetchWord 26 3 ≤ 1023 ∧
      step (State.resetWith .unwritten [0xF8, 0x1F, 0, 0]) =
        .next { State.resetWith .unwritten [0xF8, 0x1F, 0, 0] with runState := .aborted ⟨.accUnwritten, 0⟩ }) ∧
    ((State.resetWith .zero [3, 0, 0, 0]).accReset = .zero ∧
      step (State.resetWith .zero [3, 0, 0, 0]) = .next { State.resetWith .zero [3, 0, 0, 0] with ip := 4 }) :=
  ⟨⟨rfl, by decide, by decide, rfl, step_of_after (by decide)⟩, ⟨rfl, by decide, step_of_after (by decide)⟩, ⟨rfl, step_of_after (by decide)⟩⟩

/-- LOAD_CONST 1, WRITE_MEM 10: after two steps cell 10 holds the value of the last write, the one of step 1; cell 11
was never written. -/
theorem witness_ReadsReturnTheLastWrite :
    (runSteps 1 (State.resetWith .unwritten [9, 0, 0, 0, 0x50, 0, 0, 0])).storesTo 10 ∧
    (∀ j < 2, 1 < j → ¬ (runSteps j (State.resetWith .unwritten [9, 0, 0, 0, 0x50, 0, 0, 0])).storesTo 10) ∧
    (∀ k < 2, ¬ (runSteps k (State.resetWith .unwritten [9, 0, 0, 0, 0x50, 0, 0, 0])).storesTo 1023) := by decide

theorem witness_ResetState : ((State.reset).halt .haltedTruncated).runState ≠ .running ∧
    { st 1 [(3, 1)] [9] with ip := 8 }.accReset = .unwritten ∧ { st 1 [(3, 1)] [9] with ip := 8 }.image = [9] := by decide

theorem witness_PlacedWordRunsNext : decodeTableWord 32 3 = some .readMem := by decide

/-- The greatest accumulator there is, and the least. -/
theorem witness_AccumulatorReachesCellsUpTo127 : ∀ v ∈ [(127 : Int), -128],
    (st v [] []).runState = .running ∧ (st v [] []).ValuesSmall ∧ (st v [] []).accReadable = true := by decide

theorem witness_HighCellsAreWriteOnlyToAProgram : (st 127 [(127, 1), (128, 2)] [3, 0, 0, 0]).ValuesSmall ∧
    (st 127 [(127, 1), (128, 2)] [3, 0, 0, 0]).mem.wf = true ∧ Memory.wf [(127, 1), (1023, 3)] = true ∧
    (∀ a < 128, Memory.read [(127, 1), (1023, 3)] a = (st 127 [(127, 1), (128, 2)] [3, 0, 0, 0]).mem.read a) ∧
    step (st 127 [(127, 1), (128, 2)] [3, 0, 0, 0]) =
      .next { st 1 [(127, 1), (128, 2)] [3, 0, 0, 0] with ip := 4 } :=
  ⟨by decide, by decide, by decide,
    fun a ha => by simp [st, Memory.read, show a ≠ 1023 by omega, show a ≠ 128 by omega],
    step_of_after (by decide)⟩

/-- The instance of E3. -/
theorem witness_RoundTripThroughMemory : (0 : Int) ≤ 127 ∧ (127 : Int) ≤ 127 ∧ (-128 : Int) ≤ -128 ∧ (-128 : Int) ≤ 127 ∧
    (State.resetWith .unwritten []).runState = .running ∧ (State.resetWith .unwritten []).mem.wf = true := by decide

/-- A cell of each sign. -/
theorem witness_SignLaw : (0 : Int) ≤ 127 ∧ (127 : Int) ≤ 127 ∧ (st 0 [(127, 1)] []).runState = .running ∧
    ((st 0 [(127, 127)] []).mem.read (127 : Int).toNat).toInt > 0 ∧
    ((st 0 [(127, BitVec.ofInt 32 (-128))] []).mem.read (127 : Int).toNat).toInt < 0 ∧
    ((st 0 [] []).mem.read (127 : Int).toNat).toInt = 0 := by decide

/-- Both clauses where they meet: an image of two words and a byte, after two steps and after three. -/
theorem witness_EveryRunEnds : 2 ≤ ([9, 0, 0, 0, 0x50, 0, 0, 0, 7] : List Byte).length / 4 ∧
    ([9, 0, 0, 0, 0x50, 0, 0, 0, 7] : List Byte).length / 4 < 3 := by decide

/-- The whole memory after a halt; a core that has not halted, asked for a range that is not valid. -/
theorem witness_SnapshotListsTheRange : validRange ['0', ':', '1', '0', '2', '3'] = some (0, 1023) ∧
    (st 1 [] [] |>.halt .haltedTruncated).runState = .haltedTruncated ∧
    ((st 1 [] []).runState ≠ .haltedNormally ∧ (st 1 [] []).runState ≠ .haltedTruncated) ∧
    validRange ['9'] = none := by decide

theorem witness_DumpRangeValidation : validRange ['0', ':', '1', '0', '2', '3'] = some (0, 1023) ∧
    ((st 1 [] []).halt .haltedNormally).halted = true ∧ validRange ['0', ':', '1', '0', '2', '4'] = none ∧
    ((st 1 [] []).abort ⟨.memOutOfRange, -1⟩).runState = .aborted ⟨.memOutOfRange, -1⟩ := by decide

theorem witness_ExitStatusOfEachOutcome : ((st 1 [] []).halt .haltedTruncated).halted = true ∧
    validRange ['1', '1', ':', '1', '1'] ≠ none ∧ validRange ['1', '1', ':', '1', '0'] = none ∧
    ((st 1 [] []).abort ⟨.accUnwritten, 3⟩).runState = .aborted ⟨.accUnwritten, 3⟩ ∧ (st 1 [] []).runState = .running := by decide

/-- A run that succeeds, a run that aborts, a bad range, and a Running core. -/
theorem witness_EveryRunHasAnOutcome : (wholeRun .unwritten []).Safe ∧ validRange ['0', ':', '0'] = some (0, 0) ∧
    (wholeRun .unwritten [0, 0, 0, 0]).outcome ['0', ':', '0'] = some .failure ∧ validRange ['0'] = none ∧
    (st 1 [] []).runState = .running := by decide

theorem witness_StatusPortCodes : (st 1 [] []).runState = .running ∧
    ((st 1 [] []).halt .haltedNormally).runState = .haltedNormally ∧
    ((st 1 [] []).halt .haltedTruncated).runState = .haltedTruncated ∧
    ∀ c : FaultCause, ((st 1 [] []).abort ⟨c, 7⟩).runState = .aborted ⟨c, 7⟩ :=
  ⟨rfl, rfl, rfl, fun _ => rfl⟩

/-- A comment, the constant -7 (30_encoding.md R59: word 0x7C9), a blank line, and READ_MEM. -/
theorem witness_AssembledImageDecodesToItsLog :
    assemble [['#'], ['L', 'O', 'A', 'D', '_', 'C', 'O', 'N', 'S', 'T', ' ', '-', '7'], [],
      ['R', 'E', 'A', 'D', '_', 'M', 'E', 'M']] =
    .ok ⟨[0xC9, 7, 0, 0, 3, 0, 0, 0],
      [⟨.loadConst, 1, -7, [0xC9, 7, 0, 0]⟩, ⟨.readMem, 3, 0, [3, 0, 0, 0]⟩]⟩ := rfl

/-- A store to the last cell, from values at both ends of their range. -/
theorem witness_EveryStepKeepsTheInvariant : (st (-128) [(10, 127)] [0xF8, 0x1F, 0, 0]).Inv ∧
    step (st (-128) [(10, 127)] [0xF8, 0x1F, 0, 0]) =
      .next { st (-128) [(10, 127), (1023, BitVec.ofInt 32 (-128))] [0xF8, 0x1F, 0, 0] with ip := 4 } :=
  ⟨by decide, step_of_after (by decide)⟩

theorem witness_IndicesOutsideMemoryReadZero : Memory.wf [(0, 5), (1023, 1)] = true ∧ 1024 ≤ 1024 := by decide

theorem witness_FirstBadLineIsReported : assemble [[], ['F', 'O', 'O']] = .error ⟨2, ['F', 'O', 'O'], .unknownMnemonic⟩ := rfl

theorem witness_CommentsAndBlankLinesAreSkipped : ∀ c ∈ [' ', '\t'], c = ' ' ∨ c = '\t' := by simp

theorem witness_UnwrittenAccumulatorIsUnobservable :
    (State.resetWith .unwritten [9, 0, 0, 0]).accReset = .unwritten ∧
    (State.resetWith .unwritten [9, 0, 0, 0]).accWritten = false ∧
    (runSteps 1 (State.resetWith .unwritten [9, 0, 0, 0])).accWritten = true := by decide

theorem witness_CanonicalMemoriesAreEqualWhenTheyReadEqual :
    Memory.wf (Memory.write (Memory.write [] 3 1) 2 5) = true ∧ Memory.wf [(2, 5), (3, 1)] = true ∧
    Memory.write (Memory.write [] 3 1) 2 5 = [(2, 5), (3, 1)] := by decide

end Sys2Proof.Tests
end

section
/-! The scope's memory operations (00_scope.md R9): what a canonical memory lists, and so what it reads as elsewhere. -/

namespace Sys2Proof.Proofs

open Sys2Proof.Machine Sys2Proof.Laws

/-- A canonical memory lists cells only, the indices 0 to 1023. -/
theorem index_lt_of_mem_wfFrom {c : Nat × Value} :
    ∀ {lo : Nat} {m : Memory}, m.wfFrom lo = true → c ∈ m → c.1 < 1024
  | _, [], _, hc => absurd hc List.not_mem_nil
  | _, (_, _) :: _, hm, hc => by
    simp only [Memory.wfFrom, Bool.and_eq_true, decide_eq_true_eq] at hm
    obtain ⟨⟨⟨-, hcell⟩, -⟩, hrest⟩ := hm
    rcases List.mem_cons.1 hc with rfl | hc
    · exact hcell
    · exact index_lt_of_mem_wfFrom hrest hc

/-- Settles O55: a read answers 0 or a listed value, and a canonical memory lists no index of 1024 or more. -/
theorem indicesOutsideMemoryReadZero : Obligations.IndicesOutsideMemoryReadZero := by
  intro m a hm ha
  rcases read_eq_zero_or_mem a m with hzero | hlisted
  · exact hzero
  · exact absurd (index_lt_of_mem_wfFrom hm hlisted) (Nat.not_lt.2 ha)

end Sys2Proof.Proofs
end

section
/-! SUPPORT. Everything a step can do (40_sequencer.md R72 to R82), as a relation with one constructor per ending, proved
equivalent to `step`; and what every ending leaves unchanged. -/

namespace Sys2Proof.Proofs

open Sys2Proof.Machine Sys2Proof.Laws

/-- The instruction fetched in `s` completes, and `e` is its effect before `ip` advances (40_sequencer.md R77). -/
inductive Completes (s : State) : State → Prop
  | loadConst (htag : bits s.fetchWord 2 0 = 1) :
      Completes s (s.setAcc (immediateValue (sext8 (bits s.fetchWord 10 3))))
  | writeMem (htag : bits s.fetchWord 2 0 = 0) (haddr : bits s.fetchWord 26 3 ≤ 1023) (hread : s.accReadable = true) :
      Completes s (s.writeCell (bits s.fetchWord 26 3) s.acc)
  | readMem (htag : bits s.fetchWord 2 0 = 3) (hread : s.accReadable = true)
      (hacc : 0 ≤ s.acc.toInt ∧ s.acc.toInt ≤ 1023) : Completes s (s.setAcc (s.mem.read s.acc.toInt.toNat))
  | unarySgn (htag : bits s.fetchWord 2 0 = 2) (hread : s.accReadable = true)
      (hacc : 0 ≤ s.acc.toInt ∧ s.acc.toInt ≤ 1023) :
      Completes s (s.setAcc (BitVec.ofInt 32 (sgn (s.mem.read s.acc.toInt.toNat).toInt)))

/-- The word fetched in `s` raises the fault `f` (60_exceptions.md R93, in the order of R97). -/
inductive Raises (s : State) : FaultRecord → Prop
  | writeOutOfRange (htag : bits s.fetchWord 2 0 = 0) (haddr : 1023 < bits s.fetchWord 26 3) :
      Raises s ⟨.memOutOfRange, bits s.fetchWord 26 3⟩
  | accOutOfRange (htag : bits s.fetchWord 2 0 = 2 ∨ bits s.fetchWord 2 0 = 3) (hread : s.accReadable = true)
      (hacc : ¬(0 ≤ s.acc.toInt ∧ s.acc.toInt ≤ 1023)) : Raises s ⟨.memOutOfRange, s.acc.toInt⟩
  | accUnwritten
      (htag : bits s.fetchWord 2 0 = 2 ∨ bits s.fetchWord 2 0 = 3 ∨
        (bits s.fetchWord 2 0 = 0 ∧ bits s.fetchWord 26 3 ≤ 1023))
      (hread : s.accReadable = false) : Raises s ⟨.accUnwritten, bits s.fetchWord 2 0⟩
  | unknownOpcode (htag : 4 ≤ bits s.fetchWord 2 0 ∧ bits s.fetchWord 2 0 ≤ 7) :
      Raises s ⟨.unknownOpcode, bits s.fetchWord 2 0⟩

/-- The four ways a step of a Running core ends (40_sequencer.md R82). -/
inductive StepEffect (s : State) : State → Prop
  | haltNormally (hrem : s.remaining = 0) : StepEffect s (s.halt .haltedNormally)
  | haltTruncated (hne : s.remaining ≠ 0) (hrem : s.remaining < 4) : StepEffect s (s.halt .haltedTruncated)
  | complete {e : State} (hrem : 4 ≤ s.remaining) (he : Completes s e) : StepEffect s e.advance
  | abort {f : FaultRecord} (hrem : 4 ≤ s.remaining) (hf : Raises s f) : StepEffect s (s.abort f)

theorem dispatch_writeMem {s : State} (htag : bits s.fetchWord 2 0 = 0) :
    dispatchWord (decodeWord s.fetchWord) s = execWriteMem (bits s.fetchWord 26 3) s := by
  rw [decodeWord_of_tag0 htag]; rfl

theorem dispatch_of_completes {s e : State} (he : Completes s e) :
    dispatchWord (decodeWord s.fetchWord) s = .next e.advance := by
  cases he with
  | loadConst htag => rw [decodeWord_of_tag1 htag]; exact execLoadConst_eq _ s
  | writeMem htag haddr hread => rw [dispatch_writeMem htag, execWriteMem_ok (by omega) hread, Int.toNat_natCast]
  | readMem htag hread hacc => rw [decodeWord_of_tag3 htag]; exact execReadMem_ok hread hacc
  | unarySgn htag hread hacc => rw [decodeWord_of_tag2 htag]; exact execUnarySgn_ok hread hacc

theorem dispatch_of_raises {s : State} {f : FaultRecord} (hf : Raises s f) :
    dispatchWord (decodeWord s.fetchWord) s = .next (s.abort f) := by
  cases hf with
  | writeOutOfRange htag haddr => rw [dispatch_writeMem htag, execWriteMem_outOfRange (by omega)]
  | accOutOfRange htag hread hacc =>
    rcases htag with htag | htag
    · rw [decodeWord_of_tag2 htag]; exact execUnarySgn_outOfRange hread hacc
    · rw [decodeWord_of_tag3 htag]; exact execReadMem_outOfRange hread hacc
  | accUnwritten htag hread =>
    rcases htag with htag | htag | ⟨htag, haddr⟩
    · rw [decodeWord_of_tag2 htag, htag]; exact execUnarySgn_unwritten hread
    · rw [decodeWord_of_tag3 htag, htag]; exact execReadMem_unwritten hread
    · rw [dispatch_writeMem htag, execWriteMem_unwritten (by omega) hread, htag]; rfl
  | unknownOpcode htag => rw [decodeWord_of_illegal htag.1]; rfl

/-- Every fetched word completes or raises: the checks of 60_exceptions.md R97, row by row. -/
theorem completes_or_raises (s : State) : (∃ e, Completes s e) ∨ ∃ f, Raises s f := by
  rcases decodeWord_cases s.fetchWord with ⟨htag, -⟩ | ⟨htag, -⟩ | ⟨htag, -⟩ | ⟨htag, -⟩ | ⟨htag, -⟩
  · by_cases haddr : bits s.fetchWord 26 3 ≤ 1023
    · cases hread : s.accReadable
      · exact .inr ⟨_, .accUnwritten (.inr (.inr ⟨htag, haddr⟩)) hread⟩
      · exact .inl ⟨_, .writeMem htag haddr hread⟩
    · exact .inr ⟨_, .writeOutOfRange htag (by omega)⟩
  · exact .inl ⟨_, .loadConst htag⟩
  · cases hread : s.accReadable
    · exact .inr ⟨_, .accUnwritten (.inl htag) hread⟩
    · by_cases hacc : 0 ≤ s.acc.toInt ∧ s.acc.toInt ≤ 1023
      · exact .inl ⟨_, .unarySgn htag hread hacc⟩
      · exact .inr ⟨_, .accOutOfRange (.inl htag) hread hacc⟩
  · cases hread : s.accReadable
    · exact .inr ⟨_, .accUnwritten (.inr (.inl htag)) hread⟩
    · by_cases hacc : 0 ≤ s.acc.toInt ∧ s.acc.toInt ≤ 1023
      · exact .inl ⟨_, .readMem htag hread hacc⟩
      · exact .inr ⟨_, .accOutOfRange (.inr htag) hread hacc⟩
  · exact .inr ⟨_, .unknownOpcode htag⟩

theorem stepEffect_total (s : State) : ∃ t, StepEffect s t := by
  by_cases h0 : s.remaining = 0
  · exact ⟨_, .haltNormally h0⟩
  by_cases h4 : s.remaining < 4
  · exact ⟨_, .haltTruncated h0 h4⟩
  rcases completes_or_raises s with ⟨e, he⟩ | ⟨f, hf⟩
  · exact ⟨_, .complete (by omega) he⟩
  · exact ⟨_, .abort (by omega) hf⟩

theorem step_of_stepEffect {s t : State} (hrun : s.runState = .running) (h : StepEffect s t) : step s = .next t := by
  cases h with
  | haltNormally hrem => exact step_halt hrun hrem
  | haltTruncated hne hrem => exact step_truncated hrun hne hrem
  | complete hrem he => rw [step_dispatch hrun hrem, dispatch_of_completes he]
  | abort hrem hf => rw [step_dispatch hrun hrem, dispatch_of_raises hf]

/-- `StepEffect` says exactly what a step does: a Running core takes one step, to the one state it relates. -/
theorem step_eq_next_iff {s t : State} : step s = .next t ↔ s.runState = .running ∧ StepEffect s t := by
  constructor
  · intro h
    have hrun : s.runState = .running := (step_cases h).1
    obtain ⟨t', ht'⟩ := stepEffect_total s
    have heq : t' = t := by simpa [h] using (step_of_stepEffect hrun ht').symm
    exact ⟨hrun, heq ▸ ht'⟩
  · rintro ⟨hrun, h⟩
    exact step_of_stepEffect hrun h

theorem stepEffect_of_step {s t : State} (h : step s = .next t) : StepEffect s t := (step_eq_next_iff.1 h).2

theorem running_of_step {s t : State} (h : step s = .next t) : s.runState = .running := (step_eq_next_iff.1 h).1

/-- No instruction changes the image, the parameter, the run state, or `ip` before it advances. -/
theorem completes_frame {s e : State} (he : Completes s e) :
    e.image = s.image ∧ e.accReset = s.accReset ∧ e.ip = s.ip ∧ e.runState = s.runState := by
  cases he <;> exact ⟨rfl, rfl, rfl, rfl⟩

/-- Under `ACC_RESET = Unwritten` every instruction that completes leaves the accumulator written: it wrote it, or it read
it (10_state.md R19). -/
theorem completes_accWritten_of_unwritten {s e : State} (he : Completes s e) (hp : s.accReset = .unwritten) :
    e.accWritten = true := by
  cases he with
  | writeMem htag haddr hread => simpa [accReadable_eq, hp] using hread
  | loadConst | readMem | unarySgn => simp [hp]

/-- Under `ACC_RESET = Zero` no instruction touches the field of the absent bit (log 3). -/
theorem completes_accWritten_of_zero {s e : State} (he : Completes s e) (hp : s.accReset = .zero) :
    e.accWritten = s.accWritten := by
  cases he with
  | writeMem => rfl
  | loadConst | readMem | unarySgn => simp [hp]

end Sys2Proof.Proofs
end

section
/-! The invariant of the core (10_state.md R18, R20, R22; 60_exceptions.md R93): each clause is kept by every step, reset
meets them all, and so does every state that a run reaches. -/

namespace Sys2Proof.Proofs

open Sys2Proof.Machine Sys2Proof.Laws

/-- Settles O27: only WRITE_MEM touches the memory, at an address it has checked. -/
theorem memoryStaysCanonical : Obligations.MemoryStaysCanonical := by
  intro s t hwf h
  cases stepEffect_of_step h with
  | haltNormally | haltTruncated | abort => exact hwf
  | complete hrem he =>
    cases he with
    | writeMem htag haddr hread => exact write_wf hwf (by omega) s.acc
    | loadConst | readMem | unarySgn => exact hwf

theorem immediateValue_small {v : Int} (hv : -128 ≤ v ∧ v ≤ 127) : Value.small (immediateValue v) := by
  rwa [Value.small, immediateValue, toInt_ofInt_small (by omega)]

theorem sgn_small (v : Int) : Value.small (BitVec.ofInt 32 (sgn v)) :=
  immediateValue_small (by have := sgn_mem v; omega)

/-- A small value loaded into the accumulator leaves every value small. -/
theorem valuesSmall_setAcc {s : State} {v : Value} (hmem : ∀ c ∈ s.mem, Value.small c.2) (hv : Value.small v) :
    (s.setAcc v).ValuesSmall :=
  ⟨fun _ => hv, hmem⟩

theorem completes_valuesSmall {s e : State} (hs : s.ValuesSmall) (he : Completes s e) : e.ValuesSmall := by
  obtain ⟨hacc, hmem⟩ := hs
  cases he with
  | loadConst => exact valuesSmall_setAcc hmem (immediateValue_small (sext8_small (imm_lt _)))
  | readMem => exact valuesSmall_setAcc hmem (read_small hmem _)
  | unarySgn => exact valuesSmall_setAcc hmem (sgn_small _)
  | writeMem htag haddr hread =>
    refine ⟨hacc, fun c hc => ?_⟩
    rcases mem_write hc with hold | rfl
    · exact hmem c hold
    · exact hacc hread

/-- Settles O28: a value is a sign-extended byte, a sign, or a copy of a value that was there. -/
theorem valuesStayInSignedByteRange : Obligations.ValuesStayInSignedByteRange := by
  intro s t hs h
  cases stepEffect_of_step h with
  | haltNormally | haltTruncated | abort => exact hs
  | complete hrem he => exact (completes_valuesSmall hs he :)

/-- Settles O29: `ip` advances only where four bytes remain. -/
theorem ipStaysAlignedInTheImage : Obligations.IpStaysAlignedInTheImage := by
  intro s t hs h
  cases stepEffect_of_step h with
  | haltNormally | haltTruncated | abort => exact hs
  | complete hrem he =>
    obtain ⟨himage, -, hip, -⟩ := completes_frame he
    obtain ⟨halign, -⟩ := hs
    simp only [State.remaining] at hrem
    simp only [State.IpInImage, advance_ip, advance_image, himage, hip]
    omega

theorem step_keeps_flagAbsent {s t : State} (hs : s.FlagAbsent) (h : step s = .next t) : t.FlagAbsent := by
  cases stepEffect_of_step h with
  | haltNormally | haltTruncated | abort => exact hs
  | complete hrem he =>
    intro hzero
    have hp : s.accReset = .zero := (completes_frame he).2.1 ▸ hzero
    exact (completes_accWritten_of_zero he hp).trans (hs hp)

/-- Every fault the core raises is one that 60_exceptions.md R93 lists. -/
theorem raises_legal {s : State} {f : FaultRecord} (hs : s.ValuesSmall) (hf : Raises s f) : f.legal := by
  cases hf with
  | writeOutOfRange htag haddr =>
    have := addr_lt s.fetchWord
    exact .inl ⟨rfl, .inr (by simp only; omega)⟩
  | accOutOfRange htag hread hacc =>
    obtain ⟨hlo, hhi⟩ := hs.1 hread
    exact .inl ⟨rfl, .inl (by simp only; omega)⟩
  | accUnwritten htag hread => exact .inr (.inr ⟨rfl, by simp only; omega⟩)
  | unknownOpcode htag => exact .inr (.inl ⟨rfl, by simp only; omega⟩)

/-- AccUnwritten is raised only where the accumulator may not be read (10_state.md R19). -/
theorem raises_accUnwritten {s : State} {f : FaultRecord} (hf : Raises s f) (hcause : f.cause = .accUnwritten) :
    s.accReset = .unwritten ∧ s.accWritten = false := by
  cases hf with
  | accUnwritten htag hread => exact (accReadable_eq_false s).1 hread
  | writeOutOfRange | accOutOfRange | unknownOpcode => cases hcause

/-- A core that has not aborted has no fault record to be wrong (10_state.md R24). -/
theorem recordLegal_of_not_aborted {s : State} (h : ∀ f, s.runState ≠ .aborted f) : s.RecordLegal :=
  fun f hf => absurd ((faultRecord_eq_some s f).1 hf) (h f)

theorem step_makes_recordLegal {s t : State} (hs : s.ValuesSmall) (h : step s = .next t) : t.RecordLegal := by
  obtain ⟨hrun, heffect⟩ := step_eq_next_iff.1 h
  cases heffect with
  | haltNormally | haltTruncated => exact recordLegal_of_not_aborted fun f => by simp
  | complete hrem he =>
    obtain ⟨-, -, -, hstate⟩ := completes_frame he
    exact recordLegal_of_not_aborted fun f => by simp [hstate, hrun]
  | abort hrem hf =>
    intro g hg
    cases hg
    exact ⟨raises_legal hs hf, raises_accUnwritten (s := s) hf⟩

theorem step_keeps_inv {s t : State} (hs : s.Inv) (h : step s = .next t) : t.Inv := by
  obtain ⟨hwf, hsmall, hip, hflag, -⟩ := hs
  exact ⟨memoryStaysCanonical s t hwf h, valuesStayInSignedByteRange s t hsmall h, ipStaysAlignedInTheImage s t hip h,
    step_keeps_flagAbsent hflag h, step_makes_recordLegal hsmall h⟩

/-- Settles O31: at reset memory is empty, the accumulator holds 0, and `ip` is 0. -/
theorem resetMeetsTheInvariant : Obligations.ResetMeetsTheInvariant := by
  intro p img
  have hsmall : (State.resetWith p img).ValuesSmall := ⟨fun _ => by simp [Value.small], by simp⟩
  exact ⟨rfl, hsmall, ⟨rfl, Nat.zero_le _⟩, fun _ => rfl, recordLegal_of_not_aborted fun f => by simp⟩

/-- Settles O54, clause by clause. -/
theorem everyStepKeepsTheInvariant : Obligations.EveryStepKeepsTheInvariant :=
  ⟨resetMeetsTheInvariant, fun _ _ => step_keeps_inv⟩

theorem runSteps_of_step {s t : State} (h : step s = .next t) (n : Nat) : runSteps (n + 1) s = runSteps n t := by
  simp only [runSteps, h]

/-- A core that has left Running stays as it is (40_sequencer.md R79). -/
theorem runSteps_of_not_running {s : State} (h : s.runState ≠ .running) : ∀ n, runSteps n s = s
  | 0 => rfl
  | n + 1 => by
    cases hstep : step s with
    | next t => exact absurd hstep (step_notRunning h)
    | fault r => simp only [runSteps, hstep]
    | refused r => simp only [runSteps, hstep]

/-- What every step keeps holds after any number of steps. -/
theorem runSteps_keeps {P : State → Prop} (hkeep : ∀ s t, P s → step s = .next t → P t) :
    ∀ (n : Nat) {s : State}, P s → P (runSteps n s)
  | 0, _, hs => hs
  | n + 1, s, hs => by
    by_cases hrun : s.runState = .running
    · obtain ⟨t, ht⟩ := stepEffect_total s
      have hstep := step_of_stepEffect hrun ht
      rw [runSteps_of_step hstep]
      exact runSteps_keeps hkeep n (hkeep s t hs hstep)
    · rwa [runSteps_of_not_running hrun]

/-- Settles O32: reset meets the invariant and every step keeps it. -/
theorem everyReachableStateMeetsTheInvariant : Obligations.EveryReachableStateMeetsTheInvariant :=
  fun p img n => runSteps_keeps (fun _ _ => step_keeps_inv) n (resetMeetsTheInvariant p img)

end Sys2Proof.Proofs
end

section
/-! Single rules of 10_state.md: which cells change (R21), the run states (R23), the written flag (R19) and the status port
(R30). -/

namespace Sys2Proof.Proofs

open Sys2Proof.Machine Sys2Proof.Laws

/-- Settles O22: every other ending of a step leaves the memory itself unchanged. -/
theorem onlyWriteMemChangesACell : Obligations.OnlyWriteMemChangesACell := by
  intro s t a hwf h hne
  obtain ⟨hrun, heffect⟩ := step_eq_next_iff.1 h
  cases heffect with
  | haltNormally | haltTruncated | abort => exact absurd rfl hne
  | complete hrem he =>
    cases he with
    | loadConst | readMem | unarySgn => exact absurd rfl hne
    | writeMem htag haddr hread =>
      simp only [advance_mem, writeCell_mem, read_write hwf] at hne ⊢
      have ha : a = bits s.fetchWord 26 3 := by
        by_contra hother
        exact hne (if_neg hother)
      exact ⟨hrem, ha ▸ decodeWord_of_tag0 htag, ha ▸ haddr, if_pos ha, hrun⟩

/-- Settles O24: each ending of a step fixes both the run state and the number of bytes that remain. -/
theorem transitionsLeaveRunningOnly : Obligations.TransitionsLeaveRunningOnly := by
  rintro s t ⟨-, hle⟩ h
  obtain ⟨hrun, heffect⟩ := step_eq_next_iff.1 h
  refine ⟨hrun, ?_⟩
  cases heffect with
  | haltNormally hrem =>
    simp only [State.remaining] at hrem
    simp only [halt_runState, reduceCtorEq, true_iff, false_iff, exists_false, or_self]
    omega
  | haltTruncated hne hrem =>
    simp only [State.remaining] at hne hrem
    simp only [halt_runState, reduceCtorEq, true_iff, false_iff, exists_false, or_self]
    omega
  | complete hrem he =>
    obtain ⟨-, -, -, hstate⟩ := completes_frame he
    simp only [State.remaining] at hrem
    simp only [advance_runState, hstate, hrun, reduceCtorEq, false_iff, true_iff, exists_false, or_false]
    omega
  | abort hrem hf =>
    simp only [State.remaining] at hrem
    simp only [abort_runState, reduceCtorEq, false_iff, RunState.aborted.injEq, exists_eq', or_true, true_iff]
    omega

/-- Under `ACC_RESET = Unwritten` no step clears the written flag. -/
theorem step_keeps_accWritten {s t : State} (hp : s.accReset = .unwritten) (h : step s = .next t)
    (hw : s.accWritten = true) : t.accWritten = true := by
  cases stepEffect_of_step h with
  | haltNormally | haltTruncated | abort => exact hw
  | complete hrem he => rw [advance_accWritten, completes_accWritten_of_unwritten he hp]

/-- Under `ACC_RESET = Unwritten` the flag is set wherever an instruction has completed. -/
theorem accWritten_of_completed_step {s t : State} (hp : s.accReset = .unwritten) (h : step s = .next t)
    (hrem : 4 ≤ s.remaining) (hrun : t.runState = .running) : t.accWritten = true := by
  cases stepEffect_of_step h with
  | haltNormally | haltTruncated => omega
  | abort => cases hrun
  | complete _ he => rw [advance_accWritten, completes_accWritten_of_unwritten he hp]

/-- A step that reads the accumulator where it may not be read aborts with AccUnwritten and the tag. -/
theorem step_aborts_of_unreadable {s t : State} (hread : s.accReadable = false) (h : step s = .next t)
    (hrem : 4 ≤ s.remaining)
    (htag : bits s.fetchWord 2 0 = 2 ∨ bits s.fetchWord 2 0 = 3 ∨
      (bits s.fetchWord 2 0 = 0 ∧ bits s.fetchWord 26 3 ≤ 1023)) :
    t = s.abort ⟨.accUnwritten, bits s.fetchWord 2 0⟩ := by
  simpa [h] using step_of_stepEffect (running_of_step h) (.abort hrem (.accUnwritten htag hread))

/-- Under `ACC_RESET = Zero` no step raises AccUnwritten. -/
theorem step_not_accUnwritten_of_zero {s t : State} (hp : s.accReset = .zero) (h : step s = .next t) (info : Int) :
    t.runState ≠ .aborted ⟨.accUnwritten, info⟩ := by
  obtain ⟨hrun, heffect⟩ := step_eq_next_iff.1 h
  cases heffect with
  | haltNormally | haltTruncated => simp
  | complete hrem he => simp [(completes_frame he).2.2.2, hrun]
  | abort hrem hf =>
    intro hf'
    injection hf' with hf'
    have hunwritten := (raises_accUnwritten hf (congrArg FaultRecord.cause hf')).1
    rw [hp] at hunwritten
    cases hunwritten

/-- Under `ACC_RESET = Zero` no step changes the field of the absent bit (log 3). -/
theorem step_accWritten_of_zero {s t : State} (hp : s.accReset = .zero) (h : step s = .next t) :
    t.accWritten = s.accWritten := by
  cases stepEffect_of_step h with
  | haltNormally | haltTruncated | abort => rfl
  | complete hrem he => rw [advance_accWritten, completes_accWritten_of_zero he hp]

/-- Settles O33, rule by rule. -/
theorem writtenFlagRules : Obligations.WrittenFlagRules := by
  refine ⟨fun _ => rfl, fun _ => rfl, ?_, ?_, ?_⟩
  · exact fun s t hp h => ⟨fun hrem hrun _ => accWritten_of_completed_step hp h hrem hrun, step_keeps_accWritten hp h⟩
  · intro s t hp hw h hrem htag
    rw [step_aborts_of_unreadable ((accReadable_eq_false s).2 ⟨hp, hw⟩) h hrem htag, abort_runState]
  · exact fun s t info hp h => ⟨step_not_accUnwritten_of_zero hp h info, step_accWritten_of_zero hp h⟩

theorem status_of_aborted {s : State} {f : FaultRecord} (h : s.runState = .aborted f) :
    s.status = ⟨3, some (f.cause.code, f.info)⟩ := by
  rw [State.status, (faultRecord_eq_some s f).2 h, h]; rfl

theorem status_of_safe {s : State} (h : s.Safe) : s.status = ⟨s.runState.code, none⟩ := by
  rw [State.status, h]; rfl

/-- Settles O47: the record is on the port exactly when the core is Aborted. -/
theorem statusPortCodes : Obligations.StatusPortCodes := by
  intro s
  have hsafe (r : RunState) (hr : s.runState = r) (hna : ∀ f, r ≠ .aborted f) : s.status = ⟨r.code, none⟩ := by
    subst hr
    exact status_of_safe (Option.eq_none_iff_forall_ne_some.2 fun f hf => hna f ((faultRecord_eq_some s f).1 hf))
  exact ⟨fun h => hsafe _ h nofun, fun h => hsafe _ h nofun, fun h => hsafe _ h nofun,
    fun _ h => status_of_aborted h, fun _ h => status_of_aborted h, fun _ h => status_of_aborted h⟩

end Sys2Proof.Proofs
end

section
/-! What the model's choices of representation cannot show: the number in an unwritten accumulator (log 2) and the list
that holds a memory (log 4). -/

namespace Sys2Proof.Proofs

open Sys2Proof.Machine Sys2Proof.Laws

/-- The unwinding step: where the accumulator may not be read, a step with another number in it ends in the same state, or
carries that number along, still unreadable. -/
theorem step_with_unreadable_acc {s t : State} (hread : s.accReadable = false) (h : step s = .next t) (v : Value) :
    step { s with acc := v } = .next t ∨
    (t.accReadable = false ∧ step { s with acc := v } = .next { t with acc := v }) := by
  obtain ⟨hrun, heffect⟩ := step_eq_next_iff.1 h
  have hstep {t' : State} (h' : StepEffect { s with acc := v } t') : step { s with acc := v } = .next t' :=
    step_of_stepEffect hrun h'
  cases heffect with
  | haltNormally hrem => exact .inr ⟨hread, hstep (.haltNormally hrem)⟩
  | haltTruncated hne hrem => exact .inr ⟨hread, hstep (.haltTruncated hne hrem)⟩
  | complete hrem he =>
    cases he with
    | loadConst htag => exact .inl (hstep (.complete hrem (.loadConst htag)))
    | writeMem _ _ hr | readMem _ hr | unarySgn _ hr => simp [hread] at hr
  | abort hrem hf =>
    refine .inr ⟨hread, ?_⟩
    cases hf with
    | writeOutOfRange htag haddr => exact hstep (.abort hrem (.writeOutOfRange htag haddr))
    | accOutOfRange _ hr => simp [hread] at hr
    | accUnwritten htag _ => exact hstep (.abort hrem (.accUnwritten htag hread))
    | unknownOpcode htag => exact hstep (.abort hrem (.unknownOpcode htag))

/-- Two runs that differ in the number of an unreadable accumulator meet, or still differ in that alone. -/
theorem runSteps_with_unreadable_acc (v : Value) : ∀ (n : Nat) {s : State}, s.accReadable = false →
    runSteps n { s with acc := v } = runSteps n s ∨
    ((runSteps n s).accReadable = false ∧ runSteps n { s with acc := v } = { runSteps n s with acc := v })
  | 0, _, hread => .inr ⟨hread, rfl⟩
  | n + 1, s, hread => by
    by_cases hrun : s.runState = .running
    · obtain ⟨t, ht⟩ := stepEffect_total s
      have hstep := step_of_stepEffect hrun ht
      rw [runSteps_of_step hstep]
      rcases step_with_unreadable_acc hread hstep v with hsame | ⟨hread', hstep'⟩
      · exact .inl (runSteps_of_step hsame n)
      · rw [runSteps_of_step hstep']
        exact runSteps_with_unreadable_acc v n hread'
    · have hrun' : ({ s with acc := v } : State).runState ≠ .running := hrun
      rw [runSteps_of_not_running hrun, runSteps_of_not_running hrun']
      exact .inr ⟨hread, rfl⟩

/-- No observation reads the accumulator (70_reset_and_hazards.md R123). -/
theorem observe_with_acc (s : State) (v : Value) (range : List Char) :
    ({ s with acc := v } : State).observe range = s.observe range := rfl

/-- Settles O52: the two runs differ at most in the number of an accumulator that is still unwritten. -/
theorem unwrittenAccumulatorIsUnobservable : Obligations.UnwrittenAccumulatorIsUnobservable := by
  intro s v n range hp hw
  rcases runSteps_with_unreadable_acc v n ((accReadable_eq_false s).2 ⟨hp, hw⟩) with hsame | ⟨hread, hdiffer⟩
  · rw [hsame]
    exact ⟨rfl, fun _ => rfl⟩
  · rw [hdiffer]
    refine ⟨observe_with_acc _ v range, fun hwritten => ?_⟩
    simp [((accReadable_eq_false _).1 hread).2] at hwritten

theorem wfFrom_cons {lo a : Nat} {v : Value} {m : Memory} :
    Memory.wfFrom lo ((a, v) :: m) = true ↔ lo ≤ a ∧ a < 1024 ∧ v ≠ 0 ∧ m.wfFrom (a + 1) = true := by
  simp only [Memory.wfFrom, Bool.and_eq_true, decide_eq_true_eq, and_assoc]
  exact Iff.rfl

/-- A canonical memory that reads nonzero at an index starts there or below. -/
theorem le_of_read_ne_zero {lo a : Nat} {m : Memory} (hm : m.wfFrom lo = true) (h : m.read a ≠ 0) : lo ≤ a := by
  by_contra hlt
  exact h (read_below hm (by omega))

theorem read_head (a : Nat) (v : Value) (m : Memory) : Memory.read ((a, v) :: m) a = v := by
  rw [read_cons, if_pos rfl]

theorem eq_of_read_eqFrom : ∀ {lo : Nat} {m m' : Memory}, m.wfFrom lo = true → m'.wfFrom lo = true →
    (∀ a, lo ≤ a → a < 1024 → m.read a = m'.read a) → m = m'
  | _, [], [], _, _, _ => rfl
  | _, [], (b, w) :: m', _, hm', hread => by
    obtain ⟨hlo, hcell, hw, -⟩ := wfFrom_cons.1 hm'
    exact absurd ((read_head b w m').symm.trans (hread b hlo hcell).symm) hw
  | _, (a, v) :: m, [], hm, _, hread => by
    obtain ⟨hlo, hcell, hv, -⟩ := wfFrom_cons.1 hm
    exact absurd ((read_head a v m).symm.trans (hread a hlo hcell)) hv
  | lo, (a, v) :: m, (b, w) :: m', hm, hm', hread => by
    obtain ⟨hloa, hcella, hv, hrest⟩ := wfFrom_cons.1 hm
    obtain ⟨hlob, hcellb, hw, hrest'⟩ := wfFrom_cons.1 hm'
    have hva : Memory.read ((b, w) :: m') a = v := (hread a hloa hcella).symm.trans (read_head a v m)
    have hwb : Memory.read ((a, v) :: m) b = w := (hread b hlob hcellb).trans (read_head b w m')
    have hba : b ≤ a := le_of_read_ne_zero (wfFrom_cons.2 ⟨le_rfl, hcellb, hw, hrest'⟩) (hva ▸ hv)
    have hab : a ≤ b := le_of_read_ne_zero (wfFrom_cons.2 ⟨le_rfl, hcella, hv, hrest⟩) (hwb ▸ hw)
    obtain rfl : a = b := Nat.le_antisymm hab hba
    obtain rfl : v = w := (read_head a v m).symm.trans hwb
    have htail : m = m' := eq_of_read_eqFrom hrest hrest' fun c hc hcell => by
      have hne : c ≠ a := by omega
      simpa only [read_cons, if_neg hne] using hread c (by omega) hcell
    rw [htail]

/-- Settles O53, by induction on both lists: equal reads make the least listed indices equal, then their values. -/
theorem canonicalMemoriesAreEqualWhenTheyReadEqual : Obligations.CanonicalMemoriesAreEqualWhenTheyReadEqual :=
  fun _ _ hm hm' hread => eq_of_read_eqFrom hm hm' fun a _ ha => hread a ha

end Sys2Proof.Proofs
end

section
/-! The memory rules of 20_memory.md: the byte order of the image (R35), a cell reads as its last write (R42), and what an
accumulator in [-128, 127] can address (R48). -/

namespace Sys2Proof.Proofs

open Sys2Proof.Machine Sys2Proof.Laws

/-- Settles O8: a word is made up of its bytes, and the fetch makes one up of the four bytes at `ip`. -/
theorem imageWordsAreLittleEndian : Obligations.ImageWordsAreLittleEndian := by
  refine ⟨fun w => ⟨_, _, _, _, rfl, ?_⟩, fun s before after b0 b1 b2 b3 himage hip => ?_⟩
  · conv_lhs => rw [← wordOfBytes_bytesOfWord w]
    exact wordOfBytes_toNat _ _ _ _
  · have hdrop : s.image.drop s.ip = b0 :: b1 :: b2 :: b3 :: after := by
      rw [himage, hip, List.append_assoc, List.drop_left]; rfl
    rw [fetchWord_of_drop hdrop]
    exact wordOfBytes_toNat b0 b1 b2 b3

/-- An instruction that addresses by the accumulator loads a value where that address is a cell (20_memory.md R37). -/
theorem exec_accIndirect_ok {i : Instr} {s : State} (hi : i = .readMem ∨ i = .unarySgn) (hread : s.accReadable = true)
    (hacc : 0 ≤ s.acc.toInt ∧ s.acc.toInt ≤ 1023) : ∃ v, exec i s = .next (s.setAcc v).advance := by
  rcases hi with rfl | rfl
  · exact ⟨_, execReadMem_ok hread hacc⟩
  · exact ⟨_, execUnarySgn_ok hread hacc⟩

theorem exec_accIndirect_outOfRange {i : Instr} {s : State} (hi : i = .readMem ∨ i = .unarySgn)
    (hread : s.accReadable = true) (hacc : ¬(0 ≤ s.acc.toInt ∧ s.acc.toInt ≤ 1023)) :
    exec i s = .next (s.abort ⟨.memOutOfRange, s.acc.toInt⟩) := by
  rcases hi with rfl | rfl
  · exact execReadMem_outOfRange hread hacc
  · exact execUnarySgn_outOfRange hread hacc

/-- Settles O38: the bounds of R18 leave a non-negative accumulator below 1024, and a negative one is no address. -/
theorem accumulatorReachesCellsUpTo127 : Obligations.AccumulatorReachesCellsUpTo127 := by
  rintro s i hi hrun ⟨hsmall, -⟩ hread
  obtain ⟨hlo, hhi⟩ := hsmall hread
  constructor
  · intro hnonneg
    obtain ⟨v, hv⟩ := exec_accIndirect_ok hi hread (by omega)
    exact ⟨hhi, _, hv, hrun, rfl⟩
  · exact fun hneg => ⟨hlo, exec_accIndirect_outOfRange hi hread (by omega)⟩

/-- The unwinding step for completed instructions: the accumulator addresses a cell below 128, so the value loaded is the
same from both memories, and a store keeps the agreement. -/
theorem completes_with_agreeing_mem {s e : State} {m : Memory} (hs : s.ValuesSmall) (hwf : s.mem.wf = true)
    (hwf' : m.wf = true) (hagree : ∀ a, a < 128 → m.read a = s.mem.read a) (he : Completes s e) :
    ∃ m', Completes { s with mem := m } { e with mem := m' } ∧ ∀ a, a < 128 → m'.read a = e.mem.read a := by
  have hlow (hread : s.accReadable = true) (hacc : 0 ≤ s.acc.toInt ∧ s.acc.toInt ≤ 1023) :
      m.read s.acc.toInt.toNat = s.mem.read s.acc.toInt.toNat := by
    have hhi := (hs.1 hread).2
    exact hagree _ (by omega)
  cases he with
  | loadConst htag => exact ⟨m, .loadConst htag, hagree⟩
  | writeMem htag haddr hread =>
    refine ⟨m.write (bits s.fetchWord 26 3) s.acc, .writeMem htag haddr hread, fun a ha => ?_⟩
    rw [writeCell_mem, read_write hwf, read_write hwf', hagree a ha]
  | readMem htag hread hacc =>
    rw [← hlow hread hacc]
    exact ⟨m, .readMem htag hread hacc, hagree⟩
  | unarySgn htag hread hacc =>
    rw [← hlow hread hacc]
    exact ⟨m, .unarySgn htag hread hacc, hagree⟩

/-- No fault depends on memory. -/
theorem raises_with_mem {s : State} {f : FaultRecord} (m : Memory) (hf : Raises s f) : Raises { s with mem := m } f := by
  cases hf with
  | writeOutOfRange htag haddr => exact .writeOutOfRange htag haddr
  | accOutOfRange htag hread hacc => exact .accOutOfRange htag hread hacc
  | accUnwritten htag hread => exact .accUnwritten htag hread
  | unknownOpcode htag => exact .unknownOpcode htag

/-- Settles O39, ending by ending: only a completed instruction touches memory at all. -/
theorem highCellsAreWriteOnlyToAProgram : Obligations.HighCellsAreWriteOnlyToAProgram := by
  intro s s' m hs hwf hwf' hagree h
  obtain ⟨hrun, heffect⟩ := step_eq_next_iff.1 h
  have hstep {t' : State} (h' : StepEffect { s with mem := m } t') : step { s with mem := m } = .next t' :=
    step_of_stepEffect hrun h'
  cases heffect with
  | haltNormally hrem => exact ⟨m, hstep (.haltNormally hrem), hagree⟩
  | haltTruncated hne hrem => exact ⟨m, hstep (.haltTruncated hne hrem), hagree⟩
  | abort hrem hf => exact ⟨m, hstep (.abort hrem (raises_with_mem m hf)), hagree⟩
  | complete hrem he =>
    obtain ⟨m', he', hagree'⟩ := completes_with_agreeing_mem hs hwf hwf' hagree he
    exact ⟨m', hstep (.complete (s := { s with mem := m }) hrem he'), hagree'⟩

/-- The last of `n + 1` steps, taken from where the first `n` lead. -/
theorem runSteps_succ_last : ∀ (n : Nat) (s : State), runSteps (n + 1) s = runSteps 1 (runSteps n s)
  | 0, _ => rfl
  | n + 1, s => by
    by_cases hrun : s.runState = .running
    · obtain ⟨t, ht⟩ := stepEffect_total s
      have hstep := step_of_stepEffect hrun ht
      rw [runSteps_of_step hstep, runSteps_of_step hstep, runSteps_succ_last n t]
    · simp only [runSteps_of_not_running hrun]

theorem runSteps_one_of_step {s t : State} (h : step s = .next t) : runSteps 1 s = t := runSteps_of_step h 0

/-- `storesTo` names the cell that the next step writes, and the value is the accumulator's (41_load_store.md R84). -/
theorem read_after_store {s : State} {a : Nat} (hwf : s.mem.wf = true) (h : s.storesTo a) :
    (runSteps 1 s).mem.read a = s.acc := by
  obtain ⟨hrun, hrem, htag, rfl, haddr, hread⟩ := h
  have hstep := step_of_stepEffect hrun (.complete hrem (.writeMem htag (by omega) hread))
  rw [runSteps_one_of_step hstep, advance_mem, writeCell_mem, read_write hwf, if_pos rfl]

/-- A step that does not store to a cell leaves it as it reads (20_memory.md R42). -/
theorem read_after_no_store {s : State} {a : Nat} (hwf : s.mem.wf = true) (h : ¬ s.storesTo a) :
    (runSteps 1 s).mem.read a = s.mem.read a := by
  by_cases hrun : s.runState = .running
  · obtain ⟨t, ht⟩ := stepEffect_total s
    rw [runSteps_one_of_step (step_of_stepEffect hrun ht)]
    cases ht with
    | haltNormally | haltTruncated | abort => rfl
    | complete hrem he =>
      cases he with
      | loadConst | readMem | unarySgn => rfl
      | writeMem htag haddr hread =>
        have hother : a ≠ bits s.fetchWord 26 3 := fun ha => h ⟨hrun, hrem, htag, ha.symm, by omega, hread⟩
        rw [advance_mem, writeCell_mem, read_write hwf, if_neg hother]
  · rw [runSteps_of_not_running hrun]

/-- Over a stretch of a run without a store to a cell, the cell keeps its value. -/
theorem read_over_no_store {s : State} (hwf : ∀ n, (runSteps n s).mem.wf = true) {a k n : Nat} (hkn : k ≤ n)
    (h : ∀ j, k ≤ j → j < n → ¬ (runSteps j s).storesTo a) :
    (runSteps n s).mem.read a = (runSteps k s).mem.read a := by
  induction n, hkn using Nat.le_induction with
  | base => rfl
  | succ n hkn ih =>
    rw [runSteps_succ_last, read_after_no_store (hwf n) (h n hkn (Nat.lt_succ_self n))]
    exact ih fun j hkj hjn => h j hkj (Nat.lt_succ_of_lt hjn)

/-- Settles O34: the step that stores last sets the cell, and the steps after it, or all from reset on, leave it. -/
theorem readsReturnTheLastWrite : Obligations.ReadsReturnTheLastWrite := by
  intro p img n a _
  have hwf (n : Nat) : (runSteps n (State.resetWith p img)).mem.wf = true :=
    (everyReachableStateMeetsTheInvariant p img n).1
  constructor
  · intro hnone
    exact read_over_no_store hwf (Nat.zero_le n) fun j _ hj => hnone j hj
  · intro k hk hstore hlast
    rw [read_over_no_store hwf hk hlast, runSteps_succ_last]
    exact read_after_store (hwf k) hstore

end Sys2Proof.Proofs
end

section
/-! The instruction codec (30_encoding.md R49 to R61, R71): packing, range check, decode of encode, encode of decode, and
what a step reads of the word it fetches (R56, R57). -/

namespace Sys2Proof.Proofs

open Sys2Proof.Machine Sys2Proof.Laws

theorem rawOperand_lt {i : Instr} (h : i.wellFormed = true) : rawOperand i < 16777216 := by
  cases i with
  | writeMem a => have := wellFormed_writeMem.1 h; simp only [rawOperand]; omega
  | loadConst v => simp only [rawOperand]; omega
  | unarySgn | readMem => decide

theorem bits_encode_tag {i : Instr} (h : i.wellFormed = true) : bits (encode i) 2 0 = opTag i :=
  (CanonicalTag.tag_of_encode h).1

/-- The address field of an encoded instruction is its raw operand. -/
theorem bits_encode_addr {i : Instr} (h : i.wellFormed = true) : bits (encode i) 26 3 = rawOperand i := by
  have htag := CanonicalTag.opTag_lt i
  have hraw := rawOperand_lt h
  rw [bits_eq, encode_toNat h]
  omega

/-- The immediate field is the low byte of the raw operand. -/
theorem bits_encode_imm {i : Instr} (h : i.wellFormed = true) : bits (encode i) 10 3 = rawOperand i % 256 := by
  have htag := CanonicalTag.opTag_lt i
  rw [bits_eq, encode_toNat h]
  omega

/-- The codec reads back the pair that was packed (30_encoding.md R54, R59). -/
theorem codecDecode_encode {i : Instr} (h : i.wellFormed = true) : codecDecode (encode i) = (opTag i, rawOperand i) := by
  have htag := CanonicalTag.opTag_lt i
  have hraw := rawOperand_lt h
  have hB : bits (encode i) 31 3 = rawOperand i := by
    rw [bits_eq, encode_toNat h]
    omega
  rw [codecDecode, bits_encode_tag h, hB]

/-- Sign extension undoes the reduction to 8 bits of a LOAD_CONST operand (42_alu.md R87). -/
theorem sext8_toNat_emod {v : Int} (h : -128 ≤ v ∧ v ≤ 127) : sext8 (v % 256).toNat = v := by
  unfold sext8
  split <;> omega

theorem decodeWord_encode {i : Instr} (h : i.wellFormed = true) : decodeWord (encode i) = .instr i := by
  have htag := bits_encode_tag h
  cases i with
  | writeMem a =>
    have hrange := wellFormed_writeMem.1 h
    rw [decodeWord_of_tag0 htag, bits_encode_addr h, rawOperand, Int.toNat_of_nonneg hrange.1]
  | loadConst v =>
    have himm : rawOperand (.loadConst v) % 256 = (v % 256).toNat := by simp only [rawOperand]; omega
    rw [decodeWord_of_tag1 htag, bits_encode_imm h, himm, sext8_toNat_emod (wellFormed_loadConst.1 h)]
  | unarySgn => exact decodeWord_of_tag2 htag
  | readMem => exact decodeWord_of_tag3 htag

/-- The bytes of a well-formed instruction decode to it, whatever bytes follow. -/
theorem decode_encodeBytes {i : Instr} (h : i.wellFormed = true) (rest : List Byte) :
    decode (encodeBytes i ++ rest) = .ok (i, rest) := by
  rw [encodeBytes, decode_bytesOfWord, decodeWord_encode h]

theorem encodeChecked_of_wellFormed {i : Instr} (h : i.wellFormed = true) :
    encodeChecked i = .ok (encode i, displayOperand i) := if_pos h

theorem encodeChecked_of_not_wellFormed {i : Instr} (h : ¬ i.wellFormed = true) :
    encodeChecked i = .error (.outOfRange (displayOperand i)) := if_neg h

/-- Settles O4: each field of the packed word reads back what was packed there. -/
theorem encodedInstructionsDecodeToThemselves : Obligations.EncodedInstructionsDecodeToThemselves :=
  fun _ h => ⟨encodeChecked_of_wellFormed h, codecDecode_encode h, decodeWord_encode h, decode_encodeBytes h⟩

/-- A mask of low ones keeps the remainder. -/
theorem toNat_and_lowMask (w m : Word) {n : Nat} (hm : m.toNat = 2 ^ n - 1) : (w &&& m).toNat = w.toNat % 2 ^ n := by
  rw [BitVec.toNat_and, hm, Nat.and_two_pow_sub_one_eq_mod]

/-- Clearing the ignored bits of a word keeps its low bits, as many as its tag's row reads (30_encoding.md R57). -/
theorem toNat_clearIgnored {w : Word} {tag n : Nat} (htag : bits w 2 0 = tag) (hm : (readMask tag).toNat = 2 ^ n - 1) :
    (clearIgnored w).toNat = w.toNat % 2 ^ n := by
  rw [clearIgnored, htag, toNat_and_lowMask w _ hm]

/-- The instructions the decoder gives, by the tag it read (30_encoding.md R55). -/
theorem decodeWord_eq_instr {w : Word} {i : Instr} (h : decodeWord w = .instr i) :
    (bits w 2 0 = 0 ∧ i = .writeMem (bits w 26 3)) ∨ (bits w 2 0 = 1 ∧ i = .loadConst (sext8 (bits w 10 3))) ∨
    (bits w 2 0 = 2 ∧ i = .unarySgn) ∨ (bits w 2 0 = 3 ∧ i = .readMem) := by
  rcases decodeWord_cases w with ⟨ht, hd⟩ | ⟨ht, hd⟩ | ⟨ht, hd⟩ | ⟨ht, hd⟩ | ⟨-, hd⟩ <;> rw [hd] at h <;> cases h
  · exact .inl ⟨ht, rfl⟩
  · exact .inr (.inl ⟨ht, rfl⟩)
  · exact .inr (.inr (.inl ⟨ht, rfl⟩))
  · exact .inr (.inr (.inr ⟨ht, rfl⟩))

theorem decodeWord_wellFormed {w : Word} {i : Instr} (h : decodeWord w = .instr i) : i.wellFormed = true := by
  rcases decodeWord_eq_instr h with ⟨-, rfl⟩ | ⟨-, rfl⟩ | ⟨-, rfl⟩ | ⟨-, rfl⟩
  · have := addr_lt w
    exact wellFormed_writeMem.2 (by omega)
  · exact wellFormed_loadConst.2 (sext8_small (imm_lt w))
  · rfl
  · rfl

/-- Reduction to 8 bits undoes sign extension. -/
theorem toNat_sext8_emod {u : Nat} (h : u < 256) : (sext8 u % 256).toNat = u := by
  unfold sext8
  split <;> omega

/-- Settles O5: the operand read from a word packs to the same bits, and the tag to itself. -/
theorem decodedWordsEncodeToTheirCanonicalWord : Obligations.DecodedWordsEncodeToTheirCanonicalWord := by
  intro w i h
  have hwf := decodeWord_wellFormed h
  refine ⟨hwf, BitVec.eq_of_toNat_eq ?_⟩
  rw [encode_toNat hwf]
  rcases decodeWord_eq_instr h with ⟨ht, rfl⟩ | ⟨ht, rfl⟩ | ⟨ht, rfl⟩ | ⟨ht, rfl⟩
  · rw [toNat_clearIgnored (n := 27) ht rfl]
    simp only [rawOperand, opTag, Int.toNat_natCast, bits_eq] at ht ⊢
    omega
  · rw [toNat_clearIgnored (n := 11) ht rfl, rawOperand, toNat_sext8_emod (imm_lt w)]
    simp only [opTag, bits_eq] at ht ⊢
    omega
  · rw [toNat_clearIgnored (n := 3) ht rfl]
    simp only [rawOperand, opTag, bits_eq] at ht ⊢
    omega
  · rw [toNat_clearIgnored (n := 3) ht rfl]
    simp only [rawOperand, opTag, bits_eq] at ht ⊢
    omega

/-- Settles O2: the tag is the word's low three bits, and the decoder's five answers are told apart by it. -/
theorem opcodeMapIsTotalAndReadsTheTag : Obligations.OpcodeMapIsTotalAndReadsTheTag := by
  intro w
  have hmask : (w &&& 0x00000007).toNat = bits w 2 0 := by
    rw [toNat_and_lowMask w _ (n := 3) rfl, bits_eq, pow_zero, Nat.div_one]
  exact ⟨hmask, Nat.le_of_lt_succ (tag_lt w), decodeWord_of_tag0, decodeWord_of_tag1, decodeWord_of_tag2,
    decodeWord_of_tag3, decodeWord_of_illegal⟩

/-- Settles O6: below the tag's eight values, a sum is a shift and an or. -/
theorem packingOfEachInstruction : Obligations.PackingOfEachInstruction := by
  refine ⟨fun v hlo hhi => ?_, fun a hlo hhi => ?_, rfl, rfl⟩
  · rw [encode_toNat (wellFormed_loadConst.2 ⟨hlo, hhi⟩), ← Nat.shiftLeft_add_eq_or_of_lt (by decide), Nat.shiftLeft_eq]
    rfl
  · rw [encode_toNat (wellFormed_writeMem.2 ⟨hlo, hhi⟩), Nat.shiftLeft_eq]
    rfl

/-- Settles O7: the check of the encoder is well-formedness, which is the operand range. -/
theorem encoderChecksTheOperandRange : Obligations.EncoderChecksTheOperandRange := by
  refine ⟨fun v => ⟨fun h => ?_, fun h => ?_⟩, fun a => ⟨fun h => ?_, fun h => ?_⟩, rfl, rfl⟩
  · exact encodeChecked_of_wellFormed (wellFormed_loadConst.2 h)
  · exact encodeChecked_of_not_wellFormed fun hwf => by have := wellFormed_loadConst.1 hwf; omega
  · exact encodeChecked_of_wellFormed (wellFormed_writeMem.2 h)
  · exact encodeChecked_of_not_wellFormed fun hwf => by have := wellFormed_writeMem.1 hwf; omega

/-- Settles O9, by evaluation of the decoder on the seven words. -/
theorem spelledWordsDecode : Obligations.SpelledWordsDecode := by
  unfold Obligations.SpelledWordsDecode
  decide

/-- Settles O16: an illegal tag is one of the faults a step can raise. -/
theorem illegalTagsAbort : Obligations.IllegalTagsAbort := fun s hrun hrem htag =>
  step_of_stepEffect hrun (.abort hrem (.unknownOpcode ⟨htag, Nat.le_of_lt_succ (tag_lt s.fetchWord)⟩))

/-- Words that agree on the tag, and on the operand field of that tag, decode alike. -/
theorem decodeWord_eq_of_operand_eq {w w' : Word} (htag : bits w' 2 0 = bits w 2 0)
    (himm : bits w 2 0 = 1 → bits w' 10 3 = bits w 10 3) (haddr : bits w 2 0 = 0 → bits w' 26 3 = bits w 26 3) :
    decodeWord w' = decodeWord w := by
  rcases decodeWord_cases w with ⟨ht, hd⟩ | ⟨ht, hd⟩ | ⟨ht, hd⟩ | ⟨ht, hd⟩ | ⟨ht, hd⟩
  · rw [hd, decodeWord_of_tag0 (htag.trans ht), haddr ht]
  · rw [hd, decodeWord_of_tag1 (htag.trans ht), himm ht]
  · rw [hd, decodeWord_of_tag2 (htag.trans ht)]
  · rw [hd, decodeWord_of_tag3 (htag.trans ht)]
  · rw [hd, decodeWord_of_illegal (htag ▸ ht.1), htag]

/-- An instruction ends the same way from a state with another image, which it leaves in place. -/
theorem finish_with_image (check : Option FaultRecord) (s e : State) (img : List Byte) :
    ∃ t, finish check s e = .next t ∧
      finish check { s with image := img } { e with image := img } = .next { t with image := img } := by
  cases check <;> exact ⟨_, rfl, rfl⟩

/-- Once a word is decoded, nothing more is read of the image. -/
theorem dispatchWord_with_image (d : Dispatched) (s : State) (img : List Byte) :
    ∃ t, dispatchWord d s = .next t ∧ dispatchWord d { s with image := img } = .next { t with image := img } := by
  cases d with
  | illegal tag => exact finish_with_image (some ⟨.unknownOpcode, tag⟩) s s img
  | instr i =>
    cases i with
    | writeMem a => exact finish_with_image _ s (s.writeCell (absoluteAddr a).toNat s.acc) img
    | loadConst v => exact finish_with_image none s (s.setAcc (immediateValue v)) img
    | unarySgn =>
      exact finish_with_image _ s (s.setAcc (BitVec.ofInt 32 (sgn (cellAt s (accIndirectAddr s)).toInt))) img
    | readMem => exact finish_with_image _ s (s.setAcc (cellAt s (accIndirectAddr s))) img

/-- Settles O3: the two words decode alike, and the dispatch reads no more of the image. -/
theorem ignoredBitsChangeNothing : Obligations.IgnoredBitsChangeNothing := by
  intro s img hrun hlen hrem htag himm haddr
  have hrun' : ({ s with image := img } : State).runState = .running := hrun
  have hrem' : 4 ≤ ({ s with image := img } : State).remaining := by simpa only [State.remaining, hlen] using hrem
  have hdecode := decodeWord_eq_of_operand_eq htag himm haddr
  obtain ⟨t, hstep, hstep'⟩ := dispatchWord_with_image (decodeWord s.fetchWord) s img
  refine ⟨hdecode, t, ?_, ?_⟩
  · rw [step_dispatch hrun hrem, hstep]
  · rw [step_dispatch hrun' hrem', hdecode, hstep']

end Sys2Proof.Proofs
end

section
/-! Decimal text and source lines: the operand literals (30_encoding.md R63, R64), comments and blank lines (R62). -/

namespace Sys2Proof.Proofs

open Sys2Proof.Machine Sys2Proof.Laws

/-- The number that a run of decimal digits denotes, the first digit the most significant (30_encoding.md R64). -/
abbrev decimalValue (ds : List Char) : Nat := Nat.ofDigits 10 (ds.reverse.map fun c => c.toNat - '0'.toNat)

theorem decimalValue_cons (c : Char) (cs : List Char) :
    decimalValue (c :: cs) = (c.toNat - '0'.toNat) * 10 ^ cs.length + decimalValue cs := by
  simp only [decimalValue, List.reverse_cons, List.map_append, List.map_singleton, Nat.ofDigits_append,
    Nat.ofDigits_singleton, List.length_map, List.length_reverse]
  ring

theorem digitValue_eq_some {c : Char} {d : Nat} :
    digitValue c = some d ↔ ('0' ≤ c ∧ c ≤ '9') ∧ d = c.toNat - '0'.toNat := by
  have hrange : ('0' ≤ c ∧ c ≤ '9') ↔ (48 ≤ c.toNat ∧ c.toNat ≤ 57) := Iff.rfl
  rw [hrange, digitValue, Option.ite_none_right_eq_some, Option.some_inj, eq_comm (a := d)]
  rfl

/-- Reading on after `n`: every character is a digit, and `n` moves up by their number. -/
theorem digitsValue_eq_some {v : Nat} : ∀ {n : Nat} {cs : List Char}, digitsValue n cs = some v ↔
    (∀ c ∈ cs, '0' ≤ c ∧ c ≤ '9') ∧ v = n * 10 ^ cs.length + decimalValue cs
  | n, [] => by simp [digitsValue, decimalValue, eq_comm]
  | n, c :: cs => by
    rw [List.forall_mem_cons, decimalValue_cons, List.length_cons]
    cases hc : digitValue c with
    | none =>
      have hnot : ¬('0' ≤ c ∧ c ≤ '9') := fun h => by simp [digitValue_eq_some.2 ⟨h, rfl⟩] at hc
      simp [digitsValue, hc, hnot]
    | some d =>
      obtain ⟨hdigit, rfl⟩ := digitValue_eq_some.1 hc
      simp only [digitsValue, hc, digitsValue_eq_some, hdigit, and_self, true_and]
      have hvalue : (n * 10 + (c.toNat - '0'.toNat)) * 10 ^ cs.length + decimalValue cs =
          n * 10 ^ (cs.length + 1) + ((c.toNat - '0'.toNat) * 10 ^ cs.length + decimalValue cs) := by ring
      rw [hvalue]

theorem number_eq_some {cs : List Char} {v : Nat} :
    number cs = some v ↔ cs ≠ [] ∧ (∀ c ∈ cs, '0' ≤ c ∧ c ≤ '9') ∧ v = decimalValue cs := by
  rw [number, Option.ite_none_left_eq_some, digitsValue_eq_some, zero_mul, zero_add]

theorem literalValue_plus (ds : List Char) : literalValue ('+' :: ds) = (number ds).map Nat.cast := rfl

theorem literalValue_minus (ds : List Char) : literalValue ('-' :: ds) = (number ds).map fun n : Nat => -(n : Int) := rfl

theorem literalValue_unsigned {tok : List Char} (hplus : ∀ ds, tok ≠ '+' :: ds) (hminus : ∀ ds, tok ≠ '-' :: ds) :
    literalValue tok = (number tok).map Nat.cast := by
  unfold literalValue
  split
  · exact absurd rfl (hminus _)
  · exact absurd rfl (hplus _)
  · rfl

/-- A number has no sign of its own. -/
theorem literalValue_of_number {ds : List Char} {n : Nat} (h : number ds = some n) : literalValue ds = some (n : Int) := by
  obtain ⟨-, hdigits, -⟩ := number_eq_some.1 h
  have hne {c : Char} (hc : ¬('0' ≤ c ∧ c ≤ '9')) (cs : List Char) : ds ≠ c :: cs := fun hds =>
    hc (hdigits c (hds ▸ List.mem_cons_self))
  rw [literalValue_unsigned (hne (by decide)) (hne (by decide)), h]
  rfl

/-- The literals by their sign (30_encoding.md R63): a number, or one after `+` or `-`. -/
theorem literalValue_eq_some {tok : List Char} {v : Int} : literalValue tok = some v ↔
    ∃ (sign ds : List Char) (n : Nat), tok = sign ++ ds ∧ (sign = [] ∨ sign = ['+'] ∨ sign = ['-']) ∧
      number ds = some n ∧ v = (if sign = ['-'] then -1 else 1) * (n : Int) := by
  constructor
  · intro h
    by_cases hminus : ∃ ds, tok = '-' :: ds
    · obtain ⟨ds, rfl⟩ := hminus
      obtain ⟨n, hn, rfl⟩ := Option.map_eq_some_iff.1 (literalValue_minus ds ▸ h)
      exact ⟨['-'], ds, n, rfl, by simp, hn, by simp⟩
    by_cases hplus : ∃ ds, tok = '+' :: ds
    · obtain ⟨ds, rfl⟩ := hplus
      obtain ⟨n, hn, rfl⟩ := Option.map_eq_some_iff.1 (literalValue_plus ds ▸ h)
      exact ⟨['+'], ds, n, rfl, by simp, hn, by simp⟩
    rw [literalValue_unsigned (not_exists.1 hplus) (not_exists.1 hminus)] at h
    obtain ⟨n, hn, rfl⟩ := Option.map_eq_some_iff.1 h
    exact ⟨[], tok, n, rfl, by simp, hn, by simp⟩
  · rintro ⟨sign, ds, n, rfl, rfl | rfl | rfl, hn, rfl⟩
    · simpa using literalValue_of_number hn
    · simp [literalValue_plus, hn]
    · simp [literalValue_minus, hn]

/-- Settles O50: what follows the sign is a number, and a number is one or more digits. -/
theorem operandLiterals : Obligations.OperandLiterals := by
  intro tok v
  rw [literalValue_eq_some]
  constructor
  · rintro ⟨sign, ds, n, htok, hsign, hn, hv⟩
    obtain ⟨hne, hdigits, rfl⟩ := number_eq_some.1 hn
    exact ⟨sign, ds, htok, hsign, hne, hdigits, hv⟩
  · rintro ⟨sign, ds, htok, hsign, hne, hdigits, hv⟩
    exact ⟨sign, ds, _, htok, hsign, number_eq_some.2 ⟨hne, hdigits, rfl⟩, hv⟩

/-- Nothing from a `#` on is left of a line, whether an earlier `#` cut it off or this one does. -/
theorem stripComment_append_comment (line comment : List Char) :
    stripComment (line ++ '#' :: comment) = stripComment line := by
  induction line with
  | nil => rfl
  | cons c cs ih =>
    simp only [stripComment] at ih ⊢
    simp only [List.cons_append, List.takeWhile_cons, ih]

/-- White space alone makes no token. -/
theorem tokensFrom_nil_of_isWs : ∀ {cs : List Char}, (∀ c ∈ cs, isWs c = true) → tokensFrom [] cs = []
  | [], _ => rfl
  | c :: cs, h => by
    obtain ⟨hc, hcs⟩ := List.forall_mem_cons.1 h
    simp only [tokensFrom, hc, if_true, tokensFrom_nil_of_isWs hcs]

theorem lineTokens_of_isWs {line : List Char} (h : ∀ c ∈ line, isWs c = true) : lineTokens line = [] :=
  tokensFrom_nil_of_isWs fun c hc => h c ((List.takeWhile_sublist _).subset hc)

theorem assembleLine_of_no_tokens {line : List Char} (h : lineTokens line = []) : assembleLine line = .ok none := by
  simp only [assembleLine, h]

theorem assembleLine_congr {line line' : List Char} (h : lineTokens line = lineTokens line') :
    assembleLine line = assembleLine line' := by
  simp only [assembleLine, h]

/-- Settles O51: a line is assembled from its tokens, and those from what stands before its first `#`. -/
theorem commentsAndBlankLinesAreSkipped : Obligations.CommentsAndBlankLinesAreSkipped := by
  refine ⟨fun line comment => assembleLine_congr ?_, fun line h => assembleLine_of_no_tokens (lineTokens_of_isWs ?_)⟩
  · rw [lineTokens, stripComment_append_comment, lineTokens]
  · simpa only [isWs, Bool.or_eq_true, decide_eq_true_eq] using h

end Sys2Proof.Proofs
end

section
/-! The assembler over all lines (30_encoding.md R66 to R68): what a source that assembles gives, and which line one that
does not is reported for. -/

namespace Sys2Proof.Proofs

open Sys2Proof.Machine Sys2Proof.Laws

/-- An accepted operand is in its range: the encoder has checked it (30_encoding.md R60). -/
theorem withOperand_wellFormed {mk : Int → Instr} {tok : List Char} {i : Instr} (h : withOperand mk tok = .ok i) :
    i.wellFormed = true := by
  unfold withOperand at h
  split at h
  · cases h
  · rename_i v _
    by_cases hwf : (mk v).wellFormed = true
    · rw [encodeChecked_of_wellFormed hwf] at h
      cases h
      exact hwf
    · rw [encodeChecked_of_not_wellFormed hwf] at h
      cases h

theorem assembleTokens_wellFormed {mnemonic : List Char} {operands : List (List Char)} {i : Instr}
    (h : assembleTokens mnemonic operands = .ok i) : i.wellFormed = true := by
  unfold assembleTokens at h
  split at h
  · cases h
  · exact withOperand_wellFormed h
  · exact withOperand_wellFormed h
  · cases h; rfl
  · cases h; rfl
  · cases h

theorem assembleLine_wellFormed {line : List Char} {i : Instr} (h : assembleLine line = .ok (some i)) :
    i.wellFormed = true := by
  unfold assembleLine at h
  split at h
  · cases h
  · split at h
    · rename_i hi
      cases h
      exact assembleTokens_wellFormed hi
    · cases h

theorem assembleFrom_cons_none {n : Nat} {line : List Char} {rest : List (List Char)} (h : assembleLine line = .ok none) :
    assembleFrom n (line :: rest) = assembleFrom (n + 1) rest := by
  simp only [assembleFrom, h]

theorem assembleFrom_cons_some {n : Nat} {line : List Char} {rest : List (List Char)} {i : Instr}
    (h : assembleLine line = .ok (some i)) :
    assembleFrom n (line :: rest) = (assembleFrom (n + 1) rest).map (i :: ·) := by
  simp only [assembleFrom, h]
  cases assembleFrom (n + 1) rest <;> rfl

theorem assembleFrom_cons_error {n : Nat} {line : List Char} {rest : List (List Char)} {k : LineError}
    (h : assembleLine line = .error k) : assembleFrom n (line :: rest) = .error ⟨n, line, k⟩ := by
  simp only [assembleFrom, h]

/-- A source that assembles gives the instructions of its lines, in order, each line being accepted. -/
theorem parsed_of_assembleFrom : ∀ {n : Nat} {lines : List (List Char)} {is : List Instr},
    assembleFrom n lines = .ok is → ∃ parsed : List (Option Instr),
      lines.map assembleLine = parsed.map Except.ok ∧ is = parsed.filterMap id
  | _, [], _, h => by
    cases h
    exact ⟨[], rfl, rfl⟩
  | n, line :: rest, is, h => by
    cases hline : assembleLine line with
    | error k => rw [assembleFrom_cons_error hline] at h; cases h
    | ok o =>
      cases o with
      | none =>
        rw [assembleFrom_cons_none hline] at h
        obtain ⟨parsed, hmap, rfl⟩ := parsed_of_assembleFrom h
        exact ⟨none :: parsed, by simp [hline, hmap], rfl⟩
      | some i =>
        rw [assembleFrom_cons_some hline] at h
        cases hrest : assembleFrom (n + 1) rest with
        | error e => rw [hrest] at h; cases h
        | ok js =>
          rw [hrest] at h
          cases h
          obtain ⟨parsed, hmap, rfl⟩ := parsed_of_assembleFrom hrest
          exact ⟨some i :: parsed, by simp [hline, hmap], rfl⟩

/-- What `parsed_of_assembleFrom` says of each line on its own. -/
theorem assembleLine_ok_of_mem {lines : List (List Char)} {parsed : List (Option Instr)}
    (h : lines.map assembleLine = parsed.map Except.ok) {line : List Char} (hline : line ∈ lines) :
    ∃ o, assembleLine line = .ok o := by
  obtain ⟨o, -, ho⟩ := List.mem_map.1 (h ▸ List.mem_map_of_mem hline)
  exact ⟨o, ho.symm⟩

theorem wellFormed_of_parsed {lines : List (List Char)} {parsed : List (Option Instr)}
    (h : lines.map assembleLine = parsed.map Except.ok) {i : Instr} (hi : i ∈ parsed.filterMap id) :
    i.wellFormed = true := by
  obtain ⟨o, ho, rfl⟩ := List.mem_filterMap.1 hi
  obtain ⟨line, -, hline⟩ := List.mem_map.1 (h.symm ▸ List.mem_map_of_mem ho : Except.ok (some i) ∈ lines.map assembleLine)
  exact assembleLine_wellFormed hline

/-- `e` names the first bad line of `lines`, where the first one has the number `n` (30_encoding.md R66). -/
def ReportsFirstBadLine (n : Nat) (lines : List (List Char)) (e : AsmError) : Prop :=
  ∃ before line after, lines = before ++ line :: after ∧ e.lineNumber = before.length + n ∧ e.text = line ∧
    assembleLine line = .error e.kind ∧ ∀ l ∈ before, ∃ o, assembleLine l = .ok o

theorem ReportsFirstBadLine.cons_ok {n : Nat} {line : List Char} {rest : List (List Char)} {e : AsmError}
    {o : Option Instr} (hline : assembleLine line = .ok o) (h : ReportsFirstBadLine (n + 1) rest e) :
    ReportsFirstBadLine n (line :: rest) e := by
  obtain ⟨before, bad, after, rfl, hnumber, htext, hbad, hbefore⟩ := h
  exact ⟨line :: before, bad, after, rfl, by simp only [hnumber, List.length_cons]; omega, htext, hbad,
    List.forall_mem_cons.2 ⟨⟨o, hline⟩, hbefore⟩⟩

theorem reportsFirstBadLine_of_assembleFrom : ∀ {n : Nat} {lines : List (List Char)} {e : AsmError},
    assembleFrom n lines = .error e → ReportsFirstBadLine n lines e
  | _, [], _, h => by cases h
  | n, line :: rest, e, h => by
    cases hline : assembleLine line with
    | error k =>
      rw [assembleFrom_cons_error hline] at h
      cases h
      exact ⟨[], line, rest, rfl, (Nat.zero_add n).symm, rfl, hline, List.forall_mem_nil _⟩
    | ok o =>
      refine .cons_ok hline (reportsFirstBadLine_of_assembleFrom ?_)
      cases o with
      | none => rwa [assembleFrom_cons_none hline] at h
      | some i =>
        rw [assembleFrom_cons_some hline] at h
        cases hrest : assembleFrom (n + 1) rest with
        | error e' => rw [hrest] at h; cases h; rfl
        | ok js => rw [hrest] at h; cases h

theorem assemble_eq_ok {lines : List (List Char)} {out : AsmOutput} :
    assemble lines = .ok out ↔ ∃ is, assembleFrom 1 lines = .ok is ∧ out = emit is := by
  unfold assemble
  cases assembleFrom 1 lines <;> simp [eq_comm]

theorem assemble_eq_error {lines : List (List Char)} {e : AsmError} :
    assemble lines = .error e ↔ assembleFrom 1 lines = .error e := by
  unfold assemble
  cases assembleFrom 1 lines <;> simp

/-- Settles O49: the assembler stops at the first line in error, having counted the lines before it. -/
theorem firstBadLineIsReported : Obligations.FirstBadLineIsReported := by
  intro lines e h
  obtain ⟨before, line, after, hlines, hnumber, htext, hbad, hbefore⟩ :=
    reportsFirstBadLine_of_assembleFrom (assemble_eq_error.1 h)
  exact ⟨before, line, after, hlines, hnumber, htext, hbad, hbefore, by simp only [asmExitStatus, h]⟩

/-- An assembly succeeds exactly if every line assembles (30_encoding.md R67). -/
theorem assemble_succeeds_iff {lines : List (List Char)} :
    (∃ out, assemble lines = .ok out) ↔ ∀ line ∈ lines, ∃ o, assembleLine line = .ok o := by
  constructor
  · rintro ⟨out, h⟩ line hline
    obtain ⟨is, his, -⟩ := assemble_eq_ok.1 h
    obtain ⟨parsed, hmap, -⟩ := parsed_of_assembleFrom his
    exact assembleLine_ok_of_mem hmap hline
  · intro hall
    cases h : assemble lines with
    | ok out => exact ⟨out, rfl⟩
    | error e =>
      obtain ⟨before, line, after, rfl, -, -, hbad, -⟩ :=
        reportsFirstBadLine_of_assembleFrom (assemble_eq_error.1 h)
      obtain ⟨o, ho⟩ := hall line (by simp)
      rw [hbad] at ho
      cases ho

theorem length_encodeBytes (i : Instr) : (encodeBytes i).length = 4 := rfl

/-- Four bytes into the image is one instruction on (30_encoding.md R49). -/
theorem drop_flatMap_encodeBytes : ∀ (k : Nat) (is : List Instr),
    (is.flatMap encodeBytes).drop (4 * k) = (is.drop k).flatMap encodeBytes
  | 0, _ => rfl
  | _ + 1, [] => by simp
  | k + 1, i :: is => by
    rw [List.flatMap_cons, List.drop_succ_cons, ← drop_flatMap_encodeBytes k is, Nat.mul_succ, Nat.add_comm,
      ← length_encodeBytes i, List.drop_length_add_append]

/-- At instruction `k` the image holds the bytes of that instruction, and then the rest of it. -/
theorem drop_emit_image {is : List Instr} {k : Nat} {i : Instr} (h : is[k]? = some i) :
    (emit is).image.drop (4 * k) = encodeBytes i ++ (emit is).image.drop (4 * k + 4) := by
  have hsucc : 4 * k + 4 = 4 * (k + 1) := rfl
  obtain ⟨hk, rfl⟩ := List.getElem?_eq_some_iff.1 h
  simp only [emit, hsucc, drop_flatMap_encodeBytes]
  rw [List.drop_eq_getElem_cons hk, List.flatMap_cons]

theorem length_emit_image (is : List Instr) : (emit is).image.length = 4 * is.length := by
  simp [emit, List.length_flatMap, length_encodeBytes, Nat.mul_comm]

/-- Settles O48: the accepted lines give the instructions, and each of those four bytes and a record. -/
theorem assembledImageDecodesToItsLog : Obligations.AssembledImageDecodesToItsLog := by
  refine ⟨fun _ => assemble_succeeds_iff, fun lines out h => ⟨by simp only [asmExitStatus, h], ?_⟩⟩
  obtain ⟨is, his, rfl⟩ := assemble_eq_ok.1 h
  obtain ⟨parsed, hmap, hparsed⟩ := parsed_of_assembleFrom his
  have hwf : ∀ i ∈ is, i.wellFormed = true := fun i hi => wellFormed_of_parsed hmap (hparsed ▸ hi)
  refine ⟨parsed, is, hmap, hparsed, hwf, rfl, rfl, length_emit_image is, fun k i hk => ?_⟩
  have htake : ((emit is).image.drop (4 * k)).take 4 = encodeBytes i := by
    rw [drop_emit_image hk]
    exact List.take_left' (length_encodeBytes i)
  refine ⟨htake, ?_, ?_⟩
  · rw [drop_emit_image hk, decode_encodeBytes (hwf i (List.mem_of_getElem? hk))]
  · rw [htake, emit, List.getElem?_map, hk]
    rfl

end Sys2Proof.Proofs
end

section
/-! The sequencer (40_sequencer.md R72 to R82): when a step is taken, what it runs, the two halts, and where every run
ends. -/

namespace Sys2Proof.Proofs

open Sys2Proof.Machine Sys2Proof.Laws

theorem exists_step_iff {s : State} : (∃ t, step s = .next t) ↔ s.runState = .running := by
  constructor
  · rintro ⟨t, h⟩
    exact running_of_step h
  · intro hrun
    obtain ⟨t, ht⟩ := stepEffect_total s
    exact ⟨t, step_of_stepEffect hrun ht⟩

/-- Settles O19: every Running core has a `StepEffect`, and a core that has left Running stays as it is. -/
theorem stepsExistExactlyWhileRunning : Obligations.StepsExistExactlyWhileRunning :=
  ⟨fun _ => exists_step_iff, fun _ n h => runSteps_of_not_running h n⟩

/-- Settles O20: of the four endings of a step, only a completed instruction stays Running and advances `ip`. -/
theorem completedStepsAdvanceByFour : Obligations.CompletedStepsAdvanceByFour := by
  intro s t h
  obtain ⟨hrun, heffect⟩ := step_eq_next_iff.1 h
  cases heffect with
  | haltNormally | haltTruncated | abort => exact ⟨nofun, fun _ => rfl⟩
  | complete hrem he =>
    obtain ⟨himage, -, hip, hstate⟩ := completes_frame he
    simp only [State.remaining] at hrem
    refine ⟨fun _ => ?_, fun hne => absurd (hstate.trans hrun) hne⟩
    rw [advance_ip, advance_image, himage, hip]
    omega

/-- Settles O21: the one ending of a step in Aborted is the shared fault entry. -/
theorem faultsArePrecise : Obligations.FaultsArePrecise := by
  intro s t f h hf
  obtain ⟨hrun, heffect⟩ := step_eq_next_iff.1 h
  cases heffect with
  | haltNormally | haltTruncated => cases hf
  | complete hrem he => simp [(completes_frame he).2.2.2, hrun] at hf
  | abort => cases hf; rfl

/-- Bytes that decode are four, whose word the opcode map takes to the instruction, and then the rest. -/
theorem decode_eq_ok {bs rest : List Byte} {i : Instr} (h : decode bs = .ok (i, rest)) :
    ∃ b0 b1 b2 b3, bs = b0 :: b1 :: b2 :: b3 :: rest ∧ decodeWord (wordOfBytes b0 b1 b2 b3) = .instr i := by
  unfold decode at h
  split at h
  · split at h
    · rename_i hd
      cases h
      exact ⟨_, _, _, _, rfl, hd⟩
    · cases h
  · cases h

/-- Settles O15: bytes that decode are a whole word, the one that the step fetches and dispatches. -/
theorem stepRunsTheDecodedInstruction : Obligations.StepRunsTheDecodedInstruction := by
  intro s i rest hrun h
  obtain ⟨b0, b1, b2, b3, hdrop, hd⟩ := decode_eq_ok h
  rw [step_dispatch hrun (remaining_of_drop hdrop), fetchWord_of_drop hdrop, hd]
  rfl

/-- From the offset on, the image reads the bytes placed there (log 6). -/
theorem drop_placeBytes (img : List Byte) (n : Nat) (bs : List Byte) :
    (placeBytes img n bs).drop n = bs ++ img.drop (n + bs.length) := by
  have hlen : (img.take n ++ List.replicate (n - img.length) 0).length = n := by
    simp only [List.length_append, List.length_take, List.length_replicate]
    omega
  rw [placeBytes, List.append_assoc, List.drop_left' hlen]

theorem decodeWord_of_decodeTableWord {nbits w : Nat} {i : Instr} (h : decodeTableWord nbits w = some i) :
    decodeWord (tableWord nbits w) = .instr i := by
  have hdecode := decode_bytesOfWord (tableWord nbits w) []
  rw [List.append_nil] at hdecode
  rw [decodeTableWord, hdecode] at h
  cases hd : decodeWord (tableWord nbits w) with
  | instr j => rw [hd] at h; cases h; rfl
  | illegal tag => rw [hd] at h; cases h

/-- Settles O37: from `ip` on, the image holds the bytes of the placed word, which decode to the instruction. -/
theorem placedWordRunsNext : Obligations.PlacedWordRunsNext := by
  intro s nbits w i h
  refine ⟨stepRunsTheDecodedInstruction _ i (s.image.drop (s.ip + 4)) rfl ?_, rfl⟩
  rw [State.withFetchWord, placeWord_image, placeWord_ip, drop_placeBytes, decode_bytesOfWord,
    decodeWord_of_decodeTableWord h]
  rfl

/-- The two halts give the same outputs (40_sequencer.md R73): no output reads which halt it was. -/
theorem outcome_of_either_halt (s : State) (range : List Char) :
    (s.halt .haltedNormally).outcome range = (s.halt .haltedTruncated).outcome range := rfl

/-- Settles O17: a Running core with no byte left takes the first branch of the step. -/
theorem endOfImageHaltsNormally : Obligations.EndOfImageHaltsNormally :=
  ⟨fun _ hrun hrem => step_halt hrun hrem, fun _ => step_halt rfl rfl, outcome_of_either_halt⟩

theorem halted_iff {s : State} :
    s.halted = true ↔ s.runState = .haltedNormally ∨ s.runState = .haltedTruncated := by
  unfold State.halted
  cases s.runState <;> simp

theorem dump_of_validRange {s : State} (hhalt : s.halted = true) {range : List Char} {lo hi : Nat}
    (hrange : validRange range = some (lo, hi)) : s.dump range = .snapshot (s.snapshot lo hi) := by
  rw [State.dump, if_pos hhalt, hrange]

/-- A core that has halted, asked for a valid range, succeeds with its snapshot (70_reset_and_hazards.md R112). -/
theorem outcome_of_validRange {s : State} (hhalt : s.halted = true) {range : List Char} {lo hi : Nat}
    (hrange : validRange range = some (lo, hi)) : s.outcome range = some (.success (s.snapshot lo hi)) := by
  have hdump := dump_of_validRange hhalt hrange
  rcases halted_iff.1 hhalt with hstate | hstate <;> simp only [State.outcome, hstate, hdump]

theorem exitStatus_of_validRange {s : State} (hhalt : s.halted = true) {range : List Char}
    (hrange : validRange range ≠ none) : s.exitStatus range = some 0 := by
  obtain ⟨⟨lo, hi⟩, hlohi⟩ := Option.ne_none_iff_exists'.1 hrange
  rw [State.exitStatus, outcome_of_validRange hhalt hlohi]
  rfl

/-- Settles O18: a Running core with one to three bytes left takes the second branch of the step. -/
theorem truncatedImageHalts : Obligations.TruncatedImageHalts := fun s hrun hpos hlt =>
  ⟨s.halt .haltedTruncated, step_truncated hrun (ne_of_gt hpos) hlt, rfl, rfl, fun _ => exitStatus_of_validRange rfl⟩

theorem step_keeps_image {s t : State} (h : step s = .next t) : t.image = s.image := by
  cases stepEffect_of_step h with
  | haltNormally | haltTruncated | abort => rfl
  | complete hrem he => exact (completes_frame he).1

theorem runSteps_image (n : Nat) (s : State) : (runSteps n s).image = s.image :=
  runSteps_keeps (P := fun t => t.image = s.image) (fun _ _ ht h => (step_keeps_image h).trans ht) n rfl

/-- Once a run has left Running, it stays where it is (40_sequencer.md R79). -/
theorem runSteps_of_ended {s : State} {k n : Nat} (hkn : k ≤ n) (h : (runSteps k s).runState ≠ .running) :
    runSteps n s = runSteps k s := by
  induction n, hkn using Nat.le_induction with
  | base => rfl
  | succ n _ ih => rw [runSteps_succ_last, ih, runSteps_of_not_running h]

/-- With a whole word left, one step completes an instruction or aborts (40_sequencer.md R77, R78). -/
theorem runSteps_one_of_word {s : State} (hrun : s.runState = .running) (hrem : 4 ≤ s.remaining) :
    ((runSteps 1 s).runState = .running ∧ (runSteps 1 s).ip = s.ip + 4) ∨ ∃ f, runSteps 1 s = s.abort f := by
  rcases completes_or_raises s with ⟨e, he⟩ | ⟨f, hf⟩
  · obtain ⟨-, -, hip, hstate⟩ := completes_frame he
    rw [runSteps_one_of_step (step_of_stepEffect hrun (.complete hrem he)), advance_runState, advance_ip, hip, hstate]
    exact .inl ⟨hrun, rfl⟩
  · exact .inr ⟨f, runSteps_one_of_step (step_of_stepEffect hrun (.abort hrem hf))⟩

/-- After `n` steps of the run from `s`, `n` instructions have been completed and the core is still Running. -/
def Completed (s : State) (n : Nat) : Prop := (runSteps n s).runState = .running ∧ (runSteps n s).ip = 4 * n

/-- The run from `s` completes `k` instructions, and the step after them aborts with `f`. -/
def AbortsAt (s : State) (k : Nat) (f : FaultRecord) : Prop :=
  Completed s k ∧ runSteps (k + 1) s = (runSteps k s).abort f

/-- From the abort on, a run stays in the Aborted state (60_exceptions.md R98). -/
theorem AbortsAt.runSteps_eq {s : State} {k n : Nat} {f : FaultRecord} (h : AbortsAt s k f) (hkn : k < n) :
    runSteps n s = (runSteps k s).abort f := by
  obtain ⟨-, habort⟩ := h
  rw [← habort]
  exact runSteps_of_ended hkn (by rw [habort]; nofun)

/-- After `n` completed instructions, `L - 4n` bytes remain. -/
theorem Completed.remaining_eq {s : State} {n : Nat} (h : Completed s n) :
    (runSteps n s).remaining = (s.image.length : Int) - 4 * n := by
  rw [State.remaining, runSteps_image, h.2]
  omega

/-- As long as the image has a word for each step, every step completes an instruction, up to the one that aborts. -/
theorem completed_or_abortsAt {s : State} (hrun : s.runState = .running) (hip : s.ip = 0) :
    ∀ {n : Nat}, n ≤ s.image.length / 4 → Completed s n ∨ ∃ k f, k < n ∧ AbortsAt s k f
  | 0, _ => .inl ⟨hrun, hip⟩
  | n + 1, hn => by
    rcases completed_or_abortsAt hrun hip (Nat.le_of_succ_le hn) with hdone | ⟨k, f, hk, habort⟩
    · have hrem : 4 ≤ (runSteps n s).remaining := by rw [hdone.remaining_eq]; omega
      rcases runSteps_one_of_word hdone.1 hrem with ⟨hrun', hip'⟩ | ⟨f, hf⟩
      · rw [← runSteps_succ_last] at hrun' hip'
        exact .inl ⟨hrun', by rw [hip', hdone.2, Nat.mul_succ]⟩
      · exact .inr ⟨n, f, Nat.lt_succ_self n, hdone, by rw [runSteps_succ_last, hf]⟩
    · exact .inr ⟨k, f, Nat.lt_succ_of_lt hk, habort⟩

/-- With all its whole words completed, a run halts in the next step, by what is left of the image (R73, R74). -/
theorem runSteps_of_completed_image {s : State} (h : Completed s (s.image.length / 4)) {n : Nat}
    (hn : s.image.length / 4 < n) :
    runSteps n s = (runSteps (s.image.length / 4) s).halt
      (if s.image.length % 4 = 0 then .haltedNormally else .haltedTruncated) := by
  have hrem := h.remaining_eq
  have hlast : runSteps (s.image.length / 4 + 1) s = (runSteps (s.image.length / 4) s).halt
      (if s.image.length % 4 = 0 then .haltedNormally else .haltedTruncated) := by
    rw [runSteps_succ_last]
    split
    · exact runSteps_one_of_step (step_halt h.1 (by omega))
    · exact runSteps_one_of_step (step_truncated h.1 (by omega) (by omega))
  rw [← hlast]
  refine runSteps_of_ended hn ?_
  rw [hlast, halt_runState]
  split <;> nofun

/-- Settles O42: the run completes an instruction a step until it aborts or has no whole word left, and then halts. -/
theorem everyRunEnds : Obligations.EveryRunEnds := by
  intro p img n
  have hcases {m : Nat} := completed_or_abortsAt (s := State.resetWith p img) rfl rfl (n := m)
  constructor
  · intro hn
    rcases hcases hn with hdone | ⟨k, f, hk, habort⟩
    · exact .inl hdone
    · have hend := habort.runSteps_eq hk
      obtain ⟨⟨hrun, hip⟩, hnext⟩ := habort
      refine .inr ⟨k, f, hk, hrun, ?_, ?_, ?_⟩
      · rw [hnext, abort_runState]
      · rw [hend, abort_runState]
      · rw [hend, abort_ip, hip]
  · intro hn
    rcases hcases (le_refl (img.length / 4)) with hdone | ⟨k, f, hk, habort⟩
    · rw [runSteps_of_completed_image hdone hn]
      obtain ⟨hrun, hip⟩ := hdone
      exact .inr ⟨hrun, hip, rfl⟩
    · exact .inl ⟨f, by rw [habort.runSteps_eq (hk.trans hn), abort_runState]⟩

end Sys2Proof.Proofs
end

section
/-! The load/store controller (41_load_store.md): LOAD_CONST, WRITE_MEM and READ_MEM, each with its completion, frame and
faults, and the round-trip law that ties the three together. -/

namespace Sys2Proof.Proofs

open Sys2Proof.Machine Sys2Proof.Laws

/-- The accumulator holds the integer that LOAD_CONST names (41_load_store.md R83). -/
theorem toInt_immediateValue {v : Int} (hlo : -128 ≤ v) (hhi : v ≤ 127) : (immediateValue v).toInt = v :=
  toInt_ofInt_small (by omega)

/-- READ_MEM by the address that the accumulator holds (41_load_store.md R85). -/
theorem execReadMem_of_acc_eq {a : Int} {s : State} (hread : s.accReadable = true) (hacc : s.acc.toInt = a)
    (ha : 0 ≤ a ∧ a ≤ 1023) : execReadMem s = .next (s.setAcc (s.mem.read a.toNat)).advance := by
  subst hacc
  exact execReadMem_ok hread ha

/-- Settles O11: the three cases of the two checks, and a read of the canonical memory after the store. -/
theorem writeMemStoresTheAccumulator : Obligations.WriteMemStoresTheAccumulator := by
  refine ⟨fun _ => decodeWord_of_tag0, fun a s hlo hhi hwf => ⟨?_, fun ha hread => ?_, fun ha => ?_, fun ha hp hw => ?_⟩⟩
  · exact encode_toNat (wellFormed_writeMem.2 ⟨hlo, hhi⟩)
  · refine ⟨_, execWriteMem_ok ⟨hlo, ha⟩ ((accReadable_eq s).2 hread), ?_, fun b hb => ?_, rfl, rfl, rfl, rfl, rfl, rfl⟩
    · exact (read_write hwf _ _ _).trans (if_pos rfl)
    · exact (read_write hwf _ _ _).trans (if_neg hb)
  · exact execWriteMem_outOfRange (by omega)
  · exact execWriteMem_unwritten ⟨hlo, ha⟩ ((accReadable_eq_false s).2 ⟨hp, hw⟩)

/-- Settles O40: the constant makes the accumulator readable, so the store completes; the second constant is the stored
cell's index, so the load reads the value back. -/
theorem roundTripThroughMemory : Obligations.RoundTripThroughMemory := by
  intro a v s ha0 ha127 hvlo hvhi hrun hwf
  have hcell : ((s.mem.write a.toNat (immediateValue v)).read a.toNat).toInt = v := by
    rw [read_write hwf, if_pos rfl, toInt_immediateValue hvlo hvhi]
  have hindex : (immediateValue a).toInt = a := toInt_immediateValue (by omega) ha127
  exact ⟨_, _, _, _, execLoadConst_eq v s,
    execWriteMem_ok ⟨ha0, by omega⟩ (accReadable_setAcc s (immediateValue v)),
    execLoadConst_eq a _,
    execReadMem_of_acc_eq (by rw [accReadable_advance, accReadable_setAcc]) hindex ⟨ha0, by omega⟩,
    hcell, hcell, hrun, hrun, hrun, hrun⟩

/-- Settles O10: LOAD_CONST has one case, and only its written flag depends on the parameter. -/
theorem loadConstLoadsTheConstant : Obligations.LoadConstLoadsTheConstant := by
  refine ⟨fun _ => decodeWord_of_tag1, fun v s hlo hhi => ⟨?_, _, execLoadConst_eq v s, ?_, fun hp => ?_, fun hp => ?_,
    rfl, rfl, rfl, rfl, fun _ => rfl⟩⟩
  · exact encode_toNat (wellFormed_loadConst.2 ⟨hlo, hhi⟩)
  · exact toInt_immediateValue hlo hhi
  · simp [hp]
  · simp [hp]

/-- Settles O12: the three cases of the two checks; the address is the accumulator before the load. -/
theorem readMemLoadsTheAddressedCell : Obligations.ReadMemLoadsTheAddressedCell := by
  refine ⟨fun _ => decodeWord_of_tag3, rfl, fun s => ⟨fun hread hlo hhi => ?_, fun hread hacc => ?_, fun hp hw => ?_⟩⟩
  · have hreadable := (accReadable_eq s).2 hread
    have hkeep := setAcc_accWritten_of_readable hreadable (s.mem.read s.acc.toInt.toNat)
    exact ⟨_, execReadMem_ok hreadable ⟨hlo, hhi⟩, rfl, hkeep, fun _ => rfl, rfl, rfl, rfl, rfl⟩
  · exact execReadMem_outOfRange ((accReadable_eq s).2 hread) (by omega)
  · exact execReadMem_unwritten ((accReadable_eq_false s).2 ⟨hp, hw⟩)

end Sys2Proof.Proofs
end

section
/-! The sign-extend and sign ALU (42_alu.md): the two functions of the unit, UNARY_SGN with its completion, frame and
faults, and the sign law. -/

namespace Sys2Proof.Proofs

open Sys2Proof.Machine Sys2Proof.Laws

theorem sext8_of_le {u : Nat} (h : u ≤ 127) : sext8 u = (u : Int) := if_pos h

theorem sext8_of_ge {u : Nat} (h : 128 ≤ u) : sext8 u = (u : Int) - 256 := if_neg (by omega)

/-- Settles O1: one case on each side of 128, and the reduction to 8 bits as the inverse. -/
theorem signExtensionAndItsInverse : Obligations.SignExtensionAndItsInverse :=
  ⟨fun _ hu => ⟨sext8_of_le, sext8_of_ge, sext8_small (Nat.lt_succ_of_le hu)⟩,
    fun _ hlo hhi => sext8_toNat_emod ⟨hlo, hhi⟩⟩

theorem sgn_of_pos {v : Int} (h : 0 < v) : sgn v = 1 := if_pos h

theorem sgn_of_neg {v : Int} (h : v < 0) : sgn v = -1 := by
  rw [sgn, if_neg (by omega), if_pos h]

theorem sgn_zero : sgn 0 = 0 := rfl

/-- Settles O14: the three cases of the definition, and its three results. -/
theorem signFunction : Obligations.SignFunction := fun v =>
  ⟨sgn_of_pos, sgn_of_neg, fun h => h ▸ sgn_zero, sgn_mem v⟩

/-- The accumulator holds a sign exactly: the sign function never overflows (42_alu.md R88). -/
theorem toInt_ofInt_sgn (v : Int) : (BitVec.ofInt 32 (sgn v)).toInt = sgn v := by
  have hsign := sgn_mem v
  exact toInt_ofInt_small (by omega)

/-- The integer that UNARY_SGN leaves in the accumulator, by the sign of the cell's value `v` (42_alu.md R89). -/
theorem toInt_ofInt_sgn_cases (v : Int) :
    (0 < v → (BitVec.ofInt 32 (sgn v)).toInt = 1) ∧ (v < 0 → (BitVec.ofInt 32 (sgn v)).toInt = -1) ∧
    (v = 0 → (BitVec.ofInt 32 (sgn v)).toInt = 0) := by
  obtain ⟨hpos, hneg, hzero, -⟩ := signFunction v
  rw [toInt_ofInt_sgn]
  exact ⟨hpos, hneg, hzero⟩

/-- UNARY_SGN by the address that the accumulator holds (42_alu.md R89). -/
theorem execUnarySgn_of_acc_eq {a : Int} {s : State} (hread : s.accReadable = true) (hacc : s.acc.toInt = a)
    (ha : 0 ≤ a ∧ a ≤ 1023) :
    execUnarySgn s = .next (s.setAcc (BitVec.ofInt 32 (sgn (s.mem.read a.toNat).toInt))).advance := by
  subst hacc
  exact execUnarySgn_ok hread ha

/-- Settles O41: the constant makes the accumulator readable and an address, and leaves the cell as it was. -/
theorem signLaw : Obligations.SignLaw := by
  intro a s hlo hhi hrun
  have hindex : (immediateValue a).toInt = a := toInt_immediateValue (by omega) hhi
  exact ⟨_, _, execLoadConst_eq a s,
    execUnarySgn_of_acc_eq (by rw [accReadable_advance, accReadable_setAcc]) hindex ⟨hlo, by omega⟩,
    hrun, toInt_ofInt_sgn_cases _⟩

/-- Settles O13: the three cases of the two checks; the address is the accumulator before the sign replaces it. -/
theorem unarySgnLoadsTheSignOfTheAddressedCell : Obligations.UnarySgnLoadsTheSignOfTheAddressedCell := by
  refine ⟨fun _ => decodeWord_of_tag2, rfl, fun s => ⟨fun hread hlo hhi => ?_, fun hread hacc => ?_, fun hp hw => ?_⟩⟩
  · have hreadable := (accReadable_eq s).2 hread
    have hkeep := setAcc_accWritten_of_readable hreadable
      (BitVec.ofInt 32 (sgn (s.mem.read s.acc.toInt.toNat).toInt))
    obtain ⟨hpos, hneg, hzero⟩ := toInt_ofInt_sgn_cases (s.mem.read s.acc.toInt.toNat).toInt
    exact ⟨_, execUnarySgn_ok hreadable ⟨hlo, hhi⟩, hpos, hneg, hzero, hkeep, fun _ => rfl, rfl, rfl, rfl, rfl⟩
  · exact execUnarySgn_outOfRange ((accReadable_eq s).2 hread) (by omega)
  · exact execUnarySgn_unwritten ((accReadable_eq_false s).2 ⟨hp, hw⟩)

end Sys2Proof.Proofs
end

section
/-! The fault unit (60_exceptions.md): the fault a step reports, by the order of its checks (R97), the records there can be
(R93), and that none is overwritten (R98). -/

namespace Sys2Proof.Proofs

open Sys2Proof.Machine Sys2Proof.Laws

/-- Settles O30: only an abort leaves a fault record, and what it raises is legal where the values are small. -/
theorem faultRecordStaysLegal : Obligations.FaultRecordStaysLegal :=
  fun _ _ => step_makes_recordLegal

/-- Settles O26: Aborted is one of the run states in which a run stays where it is. -/
theorem faultRecordIsNeverOverwritten : Obligations.FaultRecordIsNeverOverwritten :=
  fun _ _ _ _ habort hle => runSteps_of_ended hle (by rw [habort]; nofun)

/-- A step has one ending. -/
theorem eq_of_stepEffect {s t t' : State} (h : step s = .next t) (ht' : StepEffect s t') : t = t' := by
  simpa [h] using step_of_stepEffect (running_of_step h) ht'

/-- A core that is still Running has no fault record (10_state.md R24). -/
theorem faultRecord_of_running {s : State} (hrun : s.runState = .running) : s.faultRecord = none := by
  rw [State.faultRecord, hrun]

/-- A step that halts reports no fault. -/
theorem faultRecord_of_short_step {s t : State} (h : step s = .next t) (hrem : s.remaining < 4) :
    t.faultRecord = none := by
  cases stepEffect_of_step h with
  | haltNormally | haltTruncated => rfl
  | complete hword | abort hword => omega

theorem faultRecord_of_completes {s t e : State} (h : step s = .next t) (hrem : 4 ≤ s.remaining)
    (he : Completes s e) : t.faultRecord = none := by
  obtain ⟨-, -, -, hstate⟩ := completes_frame he
  rw [eq_of_stepEffect h (.complete hrem he)]
  exact faultRecord_of_running (hstate.trans (running_of_step h))

theorem faultRecord_of_raises {s t : State} {f : FaultRecord} (h : step s = .next t) (hrem : 4 ≤ s.remaining)
    (hf : Raises s f) : t.faultRecord = some f := by
  rw [eq_of_stepEffect h (.abort hrem hf)]
  rfl

/-- The checks of WRITE_MEM: the address, then the accumulator (60_exceptions.md R97). -/
theorem faultRecord_of_writeMem {s t : State} (h : step s = .next t) (hrem : 4 ≤ s.remaining)
    (htag : bits s.fetchWord 2 0 = 0) : t.faultRecord =
      if 1023 < bits s.fetchWord 26 3 then some ⟨.memOutOfRange, bits s.fetchWord 26 3⟩
      else if s.accReadable = false then some ⟨.accUnwritten, 0⟩ else none := by
  split_ifs with haddr hread
  · exact faultRecord_of_raises h hrem (.writeOutOfRange htag haddr)
  · have hraise := Raises.accUnwritten (.inr (.inr ⟨htag, by omega⟩)) hread
    rw [htag] at hraise
    exact faultRecord_of_raises h hrem hraise
  · exact faultRecord_of_completes h hrem (.writeMem htag (by omega) (Bool.eq_true_of_not_eq_false hread))

/-- Where the address in the accumulator is a cell, READ_MEM and UNARY_SGN complete. -/
theorem completes_accIndirect {s : State} (htag : bits s.fetchWord 2 0 = 2 ∨ bits s.fetchWord 2 0 = 3)
    (hread : s.accReadable = true) (hacc : 0 ≤ s.acc.toInt ∧ s.acc.toInt ≤ 1023) : ∃ e, Completes s e := by
  rcases htag with htag | htag
  · exact ⟨_, .unarySgn htag hread hacc⟩
  · exact ⟨_, .readMem htag hread hacc⟩

/-- The checks of READ_MEM and UNARY_SGN: the accumulator, then the address it holds (60_exceptions.md R97). -/
theorem faultRecord_of_accIndirect {s t : State} (h : step s = .next t) (hrem : 4 ≤ s.remaining)
    (htag : bits s.fetchWord 2 0 = 2 ∨ bits s.fetchWord 2 0 = 3) : t.faultRecord =
      if s.accReadable = false then some ⟨.accUnwritten, bits s.fetchWord 2 0⟩
      else if s.acc.toInt < 0 ∨ 1023 < s.acc.toInt then some ⟨.memOutOfRange, s.acc.toInt⟩ else none := by
  split_ifs with hread hacc
  · exact faultRecord_of_raises h hrem (.accUnwritten (by omega) hread)
  · exact faultRecord_of_raises h hrem (.accOutOfRange htag (Bool.eq_true_of_not_eq_false hread) (by omega))
  · obtain ⟨e, he⟩ := completes_accIndirect htag (Bool.eq_true_of_not_eq_false hread) (by omega)
    exact faultRecord_of_completes h hrem he

/-- Settles O25, row by row of R97. -/
theorem firstFailingCheckIsReported : Obligations.FirstFailingCheckIsReported := by
  intro s t _ h
  simp only [← accReadable_eq_false]
  refine ⟨faultRecord_of_short_step h, fun hrem htag => ?_, faultRecord_of_writeMem h, faultRecord_of_accIndirect h,
    fun hrem htag => faultRecord_of_completes h hrem (.loadConst htag)⟩
  exact faultRecord_of_raises h hrem (.unknownOpcode ⟨htag, Nat.le_of_lt_succ (tag_lt s.fetchWord)⟩)

end Sys2Proof.Proofs
end

section
/-! The host's ports (70_reset_and_hazards.md R109 to R123): reset, the dump range and its snapshot, and the outcome and exit
status of a run. -/

namespace Sys2Proof.Proofs

open Sys2Proof.Machine Sys2Proof.Laws

theorem step_keeps_accReset {s t : State} (h : step s = .next t) : t.accReset = s.accReset := by
  cases stepEffect_of_step h with
  | haltNormally | haltTruncated | abort => rfl
  | complete hrem he =>
    obtain ⟨-, haccReset, -, -⟩ := completes_frame he
    exact haccReset

theorem runSteps_accReset (n : Nat) (s : State) : (runSteps n s).accReset = s.accReset :=
  runSteps_keeps (P := fun t => t.accReset = s.accReset) (fun _ _ ht h => (step_keeps_accReset h).trans ht) n rfl

/-- Settles O23: every step keeps both, so every run does. -/
theorem imageAndParameterAreConstant : Obligations.ImageAndParameterAreConstant :=
  fun s n => ⟨runSteps_image n s, runSteps_accReset n s⟩

/-- A restart reads only the two inputs of the run (10_state.md R33; 70_reset_and_hazards.md R109). -/
theorem restart_eq_resetWith {s : State} {p : Config.AccReset} {img : List Byte} (hp : s.accReset = p)
    (himage : s.image = img) : s.restart = State.resetWith p img := by
  rw [State.restart, hp, himage]

/-- Settles O35: reset names the value of every field, and a core that has left Running stays as it is. -/
theorem resetState : Obligations.ResetState := by
  refine ⟨fun s n hended => by rwa [runSteps_of_not_running hended], fun p img =>
    ⟨fun a _ => ?_, fun hp => ?_, fun hp => ?_, rfl, rfl, rfl, rfl, fun s => restart_eq_resetWith⟩⟩
  · rw [resetWith_mem, read_nil]; rfl
  · exact ⟨(accReadable_eq_false _).2 ⟨hp, rfl⟩, rfl⟩
  · exact ⟨(accReadable_eq _).2 (.inl hp), rfl⟩

/-- A number has digits only, and `:` is none. -/
theorem colon_not_mem_of_number {ds : List Char} {n : Nat} (h : number ds = some n) : ':' ∉ ds := by
  obtain ⟨-, hdigits, -⟩ := number_eq_some.1 h
  exact fun hcolon => absurd (hdigits ':' hcolon) (by decide)

theorem ne_colon_of_not_mem {text : List Char} (h : ':' ∉ text) : ∀ c ∈ text, decide (c ≠ ':') = true :=
  fun _ hc => decide_eq_true fun heq => h (heq ▸ hc)

theorem parseRange_of_no_colon {text : List Char} (h : ':' ∉ text) : parseRange text = none := by
  have hdrop : text.dropWhile (· ≠ ':') = [] := List.dropWhile_eq_nil_iff.2 (ne_colon_of_not_mem h)
  rw [parseRange, hdrop]
  cases number (text.takeWhile (· ≠ ':')) <;> rfl

/-- The range is cut at its first `:` into two numbers. -/
theorem parseRange_append_colon {ds : List Char} (h : ':' ∉ ds) (es : List Char) {lo hi : Nat} :
    parseRange (ds ++ ':' :: es) = some (lo, hi) ↔ number ds = some lo ∧ number es = some hi := by
  have htake : (ds ++ ':' :: es).takeWhile (· ≠ ':') = ds := by
    rw [List.takeWhile_append_of_pos (ne_colon_of_not_mem h)]; simp
  have hdrop : (ds ++ ':' :: es).dropWhile (· ≠ ':') = ':' :: es := by
    rw [List.dropWhile_append_of_pos (ne_colon_of_not_mem h)]; simp
  rw [parseRange, htake, hdrop]
  cases number ds with
  | none => simp
  | some n => cases hes : number es <;> simp [hes]

/-- The grammar of the range: a number, `:`, and a number (70_reset_and_hazards.md R114). -/
theorem parseRange_eq_some {text : List Char} {lo hi : Nat} : parseRange text = some (lo, hi) ↔
    ∃ ds es, text = ds ++ ':' :: es ∧ number ds = some lo ∧ number es = some hi := by
  constructor
  · intro h
    by_cases hcolon : ':' ∈ text
    · obtain ⟨ds, es, rfl, hds⟩ := List.eq_append_cons_of_mem hcolon
      exact ⟨ds, es, rfl, (parseRange_append_colon hds es).1 h⟩
    · rw [parseRange_of_no_colon hcolon] at h
      cases h
  · rintro ⟨ds, es, rfl, hlo, hhi⟩
    exact (parseRange_append_colon (colon_not_mem_of_number hlo) es).2 ⟨hlo, hhi⟩

theorem validRange_eq_some {text : List Char} {lo hi : Nat} :
    validRange text = some (lo, hi) ↔ parseRange text = some (lo, hi) ∧ lo ≤ hi ∧ hi < 1024 := by
  cases hparse : parseRange text with
  | none => simp [validRange, hparse]
  | some bounds =>
    obtain ⟨lo', hi'⟩ := bounds
    simp only [validRange, hparse, Option.ite_none_right_eq_some]
    constructor
    · rintro ⟨hbounds, ⟨⟩⟩
      exact ⟨rfl, hbounds⟩
    · rintro ⟨⟨⟩, hbounds⟩
      exact ⟨hbounds, rfl⟩

theorem length_snapshot (s : State) (lo hi : Nat) : (s.snapshot lo hi).length = hi + 1 - lo := by
  rw [State.snapshot, List.length_map, List.length_range]

theorem getElem?_snapshot (s : State) {lo hi k : Nat} (hk : k < hi + 1 - lo) :
    (s.snapshot lo hi)[k]? = some ⟨lo + k, (s.mem.read (lo + k)).toInt⟩ := by
  rw [State.snapshot, List.getElem?_map, List.getElem?_range hk, Option.map_some]

theorem dump_of_not_halted {s : State} (h : ¬ s.halted = true) (range : List Char) : s.dump range = .noDump := if_neg h

/-- Settles O43: an accepted range lists its cells in order, and only a core that has halted answers. -/
theorem snapshotListsTheRange : Obligations.SnapshotListsTheRange := by
  refine ⟨fun s range lo hi hrange hstate => ?_, fun s range hnormal htruncated => ?_⟩
  · obtain ⟨-, hle, -⟩ := validRange_eq_some.1 hrange
    have hlength : hi + 1 - lo = hi - lo + 1 := Nat.succ_sub hle
    exact ⟨_, dump_of_validRange (halted_iff.2 hstate) hrange, (length_snapshot s lo hi).trans hlength,
      fun k hk => getElem?_snapshot s (hlength ▸ hk)⟩
  · exact dump_of_not_halted (fun hhalt => (halted_iff.1 hhalt).elim hnormal htruncated) range

theorem dump_of_invalidRange {s : State} (hhalt : s.halted = true) {range : List Char}
    (hrange : validRange range = none) : s.dump range = .rejected .badDumpRange := by
  rw [State.dump, if_pos hhalt, hrange]

theorem outcome_of_invalidRange {s : State} (hhalt : s.halted = true) {range : List Char}
    (hrange : validRange range = none) : s.outcome range = some .failure := by
  have hdump := dump_of_invalidRange hhalt hrange
  rcases halted_iff.1 hhalt with hstate | hstate <;> simp only [State.outcome, hstate, hdump]

/-- An abort is the failure, whatever the range (70_reset_and_hazards.md R114). -/
theorem outcome_of_aborted {s : State} {f : FaultRecord} (h : s.runState = .aborted f) (range : List Char) :
    s.outcome range = some .failure := by
  simp only [State.outcome, h]

theorem outcome_of_running {s : State} (h : s.runState = .running) (range : List Char) : s.outcome range = none := by
  simp only [State.outcome, h]

theorem exitStatus_of_failure {s : State} {range : List Char} (h : s.outcome range = some .failure) :
    s.exitStatus range = some 1 := by
  rw [State.exitStatus, h]; rfl

/-- A failure shows no snapshot (70_reset_and_hazards.md R112, R116). -/
theorem observe_snapshot_of_failure {s : State} {range : List Char} (h : s.outcome range = some .failure) :
    (s.observe range).snapshot = none := by
  simp only [State.observe, h]

/-- The accepted ranges are two numbers with `:` between them, in order and in the memory (70_reset_and_hazards.md R114). -/
theorem validRange_iff_grammar {range : List Char} {lo hi : Nat} : validRange range = some (lo, hi) ↔
    ∃ ds es : List Char, range = ds ++ ':' :: es ∧ ds ≠ [] ∧ es ≠ [] ∧ (∀ c ∈ ds ++ es, '0' ≤ c ∧ c ≤ '9') ∧
      lo = decimalValue ds ∧ hi = decimalValue es ∧ lo ≤ hi ∧ hi ≤ 1023 := by
  rw [validRange_eq_some, parseRange_eq_some]
  simp only [number_eq_some, List.forall_mem_append]
  constructor
  · rintro ⟨⟨ds, es, hrange, ⟨hds, hdigits, hlo⟩, ⟨hes, hdigits', hhi⟩⟩, hle, hlt⟩
    exact ⟨ds, es, hrange, hds, hes, ⟨hdigits, hdigits'⟩, hlo, hhi, hle, Nat.le_of_lt_succ hlt⟩
  · rintro ⟨ds, es, hrange, hds, hes, ⟨hdigits, hdigits'⟩, hlo, hhi, hle, hlast⟩
    exact ⟨⟨ds, es, hrange, ⟨hds, hdigits, hlo⟩, ⟨hes, hdigits', hhi⟩⟩, hle, Nat.lt_succ_of_le hlast⟩

/-- Settles O44: the grammar of the range, and the failure that a bad range or an abort makes of the run. -/
theorem dumpRangeValidation : Obligations.DumpRangeValidation := by
  refine ⟨fun range lo hi => validRange_iff_grammar, fun s range hhalt hrange => ?_, fun s range f habort => ?_⟩
  · have hfail := outcome_of_invalidRange hhalt hrange
    exact ⟨dump_of_invalidRange hhalt hrange, exitStatus_of_failure hfail, observe_snapshot_of_failure hfail, rfl⟩
  · have hfail := outcome_of_aborted habort range
    exact ⟨exitStatus_of_failure hfail, observe_snapshot_of_failure hfail, status_of_aborted habort⟩

/-- Settles O45, outcome by outcome. -/
theorem exitStatusOfEachOutcome : Obligations.ExitStatusOfEachOutcome := by
  refine fun s range => ⟨(exitStatus_of_validRange ·), fun hhalt hrange => ?_, fun f habort => ?_, fun hrun => ?_⟩
  · exact exitStatus_of_failure (outcome_of_invalidRange hhalt hrange)
  · exact exitStatus_of_failure (outcome_of_aborted habort range)
  · rw [State.exitStatus, outcome_of_running hrun, Option.map_none]

/-- A core that has left Running has halted or aborted (10_state.md R23). -/
theorem halted_or_aborted {s : State} (hended : s.runState ≠ .running) :
    s.halted = true ∨ ∃ f, s.runState = .aborted f := by
  cases hstate : s.runState with
  | running => exact absurd hstate hended
  | haltedNormally => exact .inl (halted_iff.2 (.inl hstate))
  | haltedTruncated => exact .inl (halted_iff.2 (.inr hstate))
  | aborted f => exact .inr ⟨f, rfl⟩

theorem safe_of_halted {s : State} (hhalt : s.halted = true) : s.Safe := by
  rcases halted_iff.1 hhalt with hstate | hstate <;> rw [State.Safe, State.faultRecord, hstate]

theorem not_safe_of_aborted {s : State} {f : FaultRecord} (h : s.runState = .aborted f) : ¬ s.Safe := by
  rw [State.Safe, (faultRecord_eq_some s f).2 h]
  nofun

/-- A run that has ended without an abort has halted. -/
theorem halted_of_safe {s : State} (hended : s.runState ≠ .running) (hsafe : s.Safe) : s.halted = true :=
  (halted_or_aborted hended).resolve_right fun ⟨_, habort⟩ => not_safe_of_aborted habort hsafe

/-- The failures of a run that has ended: an abort, or a bad range (70_reset_and_hazards.md R112). -/
theorem outcome_eq_failure_iff {s : State} (hended : s.runState ≠ .running) {range : List Char} :
    s.outcome range = some .failure ↔ ¬ s.Safe ∨ validRange range = none := by
  rcases halted_or_aborted hended with hhalt | ⟨f, habort⟩
  · cases hrange : validRange range with
    | none => simp [outcome_of_invalidRange hhalt hrange]
    | some bounds =>
      obtain ⟨lo, hi⟩ := bounds
      simp [outcome_of_validRange hhalt hrange, safe_of_halted hhalt]
  · simp [outcome_of_aborted habort, not_safe_of_aborted habort]

/-- A run let to its end has left Running (40_sequencer.md R81). -/
theorem wholeRun_ended (p : Config.AccReset) (img : List Byte) : (wholeRun p img).runState ≠ .running := by
  obtain ⟨-, hend⟩ := everyRunEnds p img (img.length / 4 + 1)
  rcases hend (Nat.lt_succ_self _) with ⟨f, habort⟩ | ⟨-, -, hhalt⟩
  · rw [wholeRun, habort]
    nofun
  · rw [wholeRun, hhalt]
    split <;> nofun

/-- Settles O46: the run has ended, so its outcome is the failure, or the snapshot of the range after a halt. -/
theorem everyRunHasAnOutcome : Obligations.EveryRunHasAnOutcome := by
  refine ⟨fun p img range => ?_, fun s range hrun => outcome_of_running hrun range⟩
  have hended := wholeRun_ended p img
  refine ⟨outcome_eq_failure_iff hended, fun hfail => ?_, fun lo hi hsafe hrange => ?_⟩
  · exact ⟨exitStatus_of_failure hfail, observe_snapshot_of_failure hfail⟩
  · have hhalt := halted_of_safe hended hsafe
    exact ⟨outcome_of_validRange hhalt hrange, exitStatus_of_validRange hhalt (hrange ▸ nofun)⟩

end Sys2Proof.Proofs
end

section
/-! The core right after `State.reset`: no image is placed, so its first step finds no byte to fetch (40_sequencer.md R73). -/

namespace Sys2Proof.Proofs

open Sys2Proof.Machine

/-- Settles O36: `State.reset` is a reset with the empty image, from which the first step halts normally. -/
theorem resetWithNothingPlacedHalts : Obligations.ResetWithNothingPlacedHalts := by
  obtain ⟨-, hempty, -⟩ := endOfImageHaltsNormally
  exact ⟨rfl, hempty accResetDefault⟩

end Sys2Proof.Proofs
end
